-- ==== Sys2Proof/Word.lean ====
section
/-! DEFINITION. The words of the machine (R4, R6): every value the manual adds, shifts or masks is a bit vector of
the width R4 gives it, and all of them are unsigned. -/

namespace Sys2Proof

/-- A register, a timer, a byte of memory, an immediate NN: 8 bits (R4 REG_W, TIMER_W; R61). -/
abbrev Byte := BitVec 8

/-- An opcode, `pc`, `I`, a stack entry: 16 bits (R4 INSTR_W, PC_W, I_W; R15). -/
abbrev Word := BitVec 16

/-- A 4-bit field of an opcode (R61). -/
abbrev Nibble := BitVec 4

/-- The 12-bit address immediate NNN (R61). -/
abbrev Addr := BitVec 12

/-- The number of a general register: every value of the fields X and Y names a register (R63). -/
abbrev RegIdx := Fin 16

end Sys2Proof
end

