-- ==== Sys2Proof/Syntax.lean ====
section
/-! DEFINITION. The instruction set: one constructor per row of spec/opcode_table.json (R65), in the table's order.
Operands carry their bounds in their types: a register number is 0 to 15 (R63), NN is 8, NNN 12 and N 4 bits (R61). -/

namespace Sys2Proof

/-- The 34 instructions. -/
inductive Instr where
  /-- 00E0 `CLS` (R160). -/
  | cls
  /-- 00EE `RET` (R101). -/
  | ret
  /-- 1NNN `JP NNN` (R100). -/
  | jp (nnn : Addr)
  /-- 2NNN `CALL NNN` (R102). -/
  | call (nnn : Addr)
  /-- 3XNN `SE Vx, NN` (R104). -/
  | seImm (x : RegIdx) (nn : Byte)
  /-- 4XNN `SNE Vx, NN` (R105). -/
  | sneImm (x : RegIdx) (nn : Byte)
  /-- 5XYN `SE Vx, Vy` (R106). The nibble `n` is kept so that every word has its own term, and is ignored (R67). -/
  | seReg (x y : RegIdx) (n : Nibble)
  /-- 6XNN `LD Vx, NN` (R122). -/
  | ldImm (x : RegIdx) (nn : Byte)
  /-- 7XNN `ADD Vx, NN` (R123). -/
  | addImm (x : RegIdx) (nn : Byte)
  /-- 8XY0 `LD Vx, Vy` (R124). -/
  | ldReg (x y : RegIdx)
  /-- 8XY1 `OR Vx, Vy` (R125). -/
  | orReg (x y : RegIdx)
  /-- 8XY2 `AND Vx, Vy` (R126). -/
  | andReg (x y : RegIdx)
  /-- 8XY3 `XOR Vx, Vy` (R127). -/
  | xorReg (x y : RegIdx)
  /-- 8XY4 `ADD Vx, Vy` (R128). -/
  | addReg (x y : RegIdx)
  /-- 8XY5 `SUB Vx, Vy` (R129). -/
  | subReg (x y : RegIdx)
  /-- 8XY6 `SHR Vx, Vy` (R131). -/
  | shr (x y : RegIdx)
  /-- 8XY7 `SUBN Vx, Vy` (R130). -/
  | subnReg (x y : RegIdx)
  /-- 8XYE `SHL Vx, Vy` (R133). -/
  | shl (x y : RegIdx)
  /-- 9XYN `SNE Vx, Vy` (R107). The nibble `n` is kept and ignored, as for `seReg` (R67). -/
  | sneReg (x y : RegIdx) (n : Nibble)
  /-- ANNN `LD I, NNN` (R140). -/
  | ldI (nnn : Addr)
  /-- BNNN `JP V0, NNN` (R109). -/
  | jpV0 (nnn : Addr)
  /-- CXNN `RND Vx, NN` (R170). -/
  | rnd (x : RegIdx) (nn : Byte)
  /-- DXYN `DRW Vx, Vy, N` (R162). -/
  | drw (x y : RegIdx) (n : Nibble)
  /-- EX9E `SKP Vx` (R174). -/
  | skp (x : RegIdx)
  /-- EXA1 `SKNP Vx` (R175). -/
  | sknp (x : RegIdx)
  /-- FX07 `LD Vx, DT` (R171). -/
  | ldVxDT (x : RegIdx)
  /-- FX0A `LD Vx, K` (R177). -/
  | ldVxK (x : RegIdx)
  /-- FX15 `LD DT, Vx` (R172). -/
  | ldDTVx (x : RegIdx)
  /-- FX18 `LD ST, Vx` (R173). -/
  | ldSTVx (x : RegIdx)
  /-- FX1E `ADD I, Vx` (R141). -/
  | addI (x : RegIdx)
  /-- FX29 `LD F, Vx` (R142). -/
  | ldF (x : RegIdx)
  /-- FX33 `LD B, Vx` (R143). -/
  | ldB (x : RegIdx)
  /-- FX55 `LD [I], Vx` (R144). -/
  | storeRegs (x : RegIdx)
  /-- FX65 `LD Vx, [I]` (R145). -/
  | loadRegs (x : RegIdx)
deriving DecidableEq, Repr

end Sys2Proof
end

