-- ==== Sys2Proof/WellFormed.lean ====
section
/-! DEFINITION. What is well formed: an opcode word, a ROM handed to LOAD, a key index handed to SET_KEY. An `Instr`
needs no check of its own: its operand types hold exactly the values its fields can take (R61, R63). -/

namespace Sys2Proof

/-- The illegal words, written from R66's own list and not from the opcode table the decoder searches:
(a) 0NNN other than 00E0 and 00EE; (b) 8XYN with N in 8, 9, A, B, C, D, F; (c) EXNN with NN other than 9E, A1;
(d) FXNN with NN outside 07, 0A, 15, 18, 1E, 29, 33, 55, 65. -/
def illegalWord (op : Word) : Bool :=
  let p : Nibble := op.extractLsb' 12 4
  let n : Nibble := op.extractLsb' 0 4
  let nn : Byte := op.extractLsb' 0 8
  (p == 0x0 && !(op == 0x00E0 || op == 0x00EE)) ||
  (p == 0x8 && ([0x8, 0x9, 0xA, 0xB, 0xC, 0xD, 0xF] : List Nibble).contains n) ||
  (p == 0xE && !([0x9E, 0xA1] : List Byte).contains nn) ||
  (p == 0xF && !([0x07, 0x0A, 0x15, 0x18, 0x1E, 0x29, 0x33, 0x55, 0x65] : List Byte).contains nn)

/-- A ROM that LOAD accepts: at most 3584 bytes (R4 MAX_ROM, R224, C10). Nothing else about a ROM is checked. -/
def romFits (rom : List Byte) : Bool := decide (rom.length ≤ 3584)

/-- A key index in SET_KEY's domain: 0 to 15 (R208, C8). -/
def keyIndexInDomain (k : Nat) : Bool := decide (k ≤ 15)

end Sys2Proof
end

