-- ==== Sys2Proof/Decode.lean ====
section
/-! DEFINITION. Decode and encode (R60 to R69). The opcode map of R65 is a list of rows, each a mask, a pattern and
the instruction built from the fields; a word selects a row when `op & mask == match`. UNVERIFIED, as the spec itself says:
the bit patterns of 32 of the 34 rows are the standard CHIP-8 table (D2, G1; log 9). -/

namespace Sys2Proof

/-- The fields of an opcode (R61). "All six fields are extracted for every opcode; an instruction uses the ones its
format names" (R82); P takes part in the mask match only. -/
structure Fields where
  p : Nibble
  x : RegIdx
  y : RegIdx
  n : Nibble
  nn : Byte
  nnn : Addr
deriving DecidableEq, Repr

/-- A nibble as a register number (R63). -/
def regOfNibble (b : Nibble) : RegIdx := b.toFin

/-- A register number as the nibble that encodes it. -/
def nibbleOfReg (r : RegIdx) : Nibble := BitVec.ofFin r

/-- The fields at their places (R61 table). -/
def fieldsOf (op : Word) : Fields where
  p := op.extractLsb' 12 4
  x := regOfNibble (op.extractLsb' 8 4)
  y := regOfNibble (op.extractLsb' 4 4)
  n := op.extractLsb' 0 4
  nn := op.extractLsb' 0 8
  nnn := op.extractLsb' 0 12

/-- One row of the opcode map (R65). -/
structure Row where
  mnemonic : String
  mask : Word
  pattern : Word
  build : Fields → Instr

/-- "an opcode selects the row when `op & mask == match`" (R65). -/
def Row.selects (r : Row) (op : Word) : Bool := op &&& r.mask == r.pattern

/-- Rows 1 to 7 of R65. -/
def rowsControl : List Row := [
  ⟨"CLS", 0xFFFF, 0x00E0, fun _ => .cls⟩,
  ⟨"RET", 0xFFFF, 0x00EE, fun _ => .ret⟩,
  ⟨"JP_NNN", 0xF000, 0x1000, fun f => .jp f.nnn⟩,
  ⟨"CALL_NNN", 0xF000, 0x2000, fun f => .call f.nnn⟩,
  ⟨"SE_Vx__NN", 0xF000, 0x3000, fun f => .seImm f.x f.nn⟩,
  ⟨"SNE_Vx__NN", 0xF000, 0x4000, fun f => .sneImm f.x f.nn⟩,
  ⟨"SE_Vx__Vy", 0xF000, 0x5000, fun f => .seReg f.x f.y f.n⟩]

/-- Rows 8 to 19 of R65. -/
def rowsLoadAlu : List Row := [
  ⟨"LD_Vx__NN", 0xF000, 0x6000, fun f => .ldImm f.x f.nn⟩,
  ⟨"ADD_Vx__NN", 0xF000, 0x7000, fun f => .addImm f.x f.nn⟩,
  ⟨"LD_Vx__Vy", 0xF00F, 0x8000, fun f => .ldReg f.x f.y⟩,
  ⟨"OR_Vx__Vy", 0xF00F, 0x8001, fun f => .orReg f.x f.y⟩,
  ⟨"AND_Vx__Vy", 0xF00F, 0x8002, fun f => .andReg f.x f.y⟩,
  ⟨"XOR_Vx__Vy", 0xF00F, 0x8003, fun f => .xorReg f.x f.y⟩,
  ⟨"ADD_Vx__Vy", 0xF00F, 0x8004, fun f => .addReg f.x f.y⟩,
  ⟨"SUB_Vx__Vy", 0xF00F, 0x8005, fun f => .subReg f.x f.y⟩,
  ⟨"SHR_Vx__Vy", 0xF00F, 0x8006, fun f => .shr f.x f.y⟩,
  ⟨"SUBN_Vx__Vy", 0xF00F, 0x8007, fun f => .subnReg f.x f.y⟩,
  ⟨"SHL_Vx__Vy", 0xF00F, 0x800E, fun f => .shl f.x f.y⟩,
  ⟨"SNE_Vx__Vy", 0xF000, 0x9000, fun f => .sneReg f.x f.y f.n⟩]

/-- Rows 20 to 25 of R65. -/
def rowsIndexDisplayKeys : List Row := [
  ⟨"LD_I__NNN", 0xF000, 0xA000, fun f => .ldI f.nnn⟩,
  ⟨"JP_V0__NNN", 0xF000, 0xB000, fun f => .jpV0 f.nnn⟩,
  ⟨"RND_Vx__NN", 0xF000, 0xC000, fun f => .rnd f.x f.nn⟩,
  ⟨"DRW_Vx__Vy__N", 0xF000, 0xD000, fun f => .drw f.x f.y f.n⟩,
  ⟨"SKP_Vx", 0xF0FF, 0xE09E, fun f => .skp f.x⟩,
  ⟨"SKNP_Vx", 0xF0FF, 0xE0A1, fun f => .sknp f.x⟩]

/-- Rows 26 to 34 of R65. -/
def rowsTimersMemory : List Row := [
  ⟨"LD_Vx__DT", 0xF0FF, 0xF007, fun f => .ldVxDT f.x⟩,
  ⟨"LD_Vx__K", 0xF0FF, 0xF00A, fun f => .ldVxK f.x⟩,
  ⟨"LD_DT__Vx", 0xF0FF, 0xF015, fun f => .ldDTVx f.x⟩,
  ⟨"LD_ST__Vx", 0xF0FF, 0xF018, fun f => .ldSTVx f.x⟩,
  ⟨"ADD_I__Vx", 0xF0FF, 0xF01E, fun f => .addI f.x⟩,
  ⟨"LD_F__Vx", 0xF0FF, 0xF029, fun f => .ldF f.x⟩,
  ⟨"LD_B__Vx", 0xF0FF, 0xF033, fun f => .ldB f.x⟩,
  ⟨"LD__I___Vx", 0xF0FF, 0xF055, fun f => .storeRegs f.x⟩,
  ⟨"LD_Vx___I", 0xF0FF, 0xF065, fun f => .loadRegs f.x⟩]

/-- The opcode map: the 34 rows of R65 in the table's order. -/
def opcodeMap : List Row := rowsControl ++ (rowsLoadAlu ++ (rowsIndexDisplayKeys ++ rowsTimersMemory))

/-- Why bytes are not an instruction: the word selects no row (R66), or fewer than two bytes are given (R60). -/
inductive DecodeError where
  | illegalOpcode (op : Word)
  | truncated
deriving DecidableEq, Repr

/-- Decode and dispatch of one opcode (R64, R80 stages 2 and 3): the instruction of the row it selects, or
IllegalOpcode. -/
def decodeWord (op : Word) : Except DecodeError Instr :=
  match opcodeMap.find? (fun r => r.selects op) with
  | some r => .ok (r.build (fieldsOf op))
  | none => .error (.illegalOpcode op)

/-- Two bytes as an opcode: big-endian, the first is the high byte (R43). -/
def wordOfBytes (hi lo : Byte) : Word := hi ++ lo

/-- The high byte of an opcode: the one at the lower address (R43). -/
def highByte (op : Word) : Byte := op.extractLsb' 8 8

/-- The low byte of an opcode. -/
def lowByte (op : Word) : Byte := op.extractLsb' 0 8

/-- Decode the first instruction of a list of bytes and give the rest of the list. Every instruction is exactly two
bytes (R60). -/
def decode : List Byte → Except DecodeError (Instr × List Byte)
  | hi :: lo :: rest =>
    match decodeWord (wordOfBytes hi lo) with
    | .ok i => .ok (i, rest)
    | .error e => .error e
  | _ => .error .truncated

/-! ### The encoder, from the formats of R62 -/

/-- ADDR: P, NNN. -/
def wordAddr (p : Nibble) (nnn : Addr) : Word := p ++ nnn

/-- REGIMM, and REGOP with NN as the secondary opcode: P, X, NN. -/
def wordRegImm (p : Nibble) (x : RegIdx) (nn : Byte) : Word := p ++ (nibbleOfReg x ++ nn)

/-- REGREG: P, X, Y, N. -/
def wordRegReg (p : Nibble) (x y : RegIdx) (n : Nibble) : Word := p ++ (nibbleOfReg x ++ (nibbleOfReg y ++ n))

/-- The word of an instruction (R62, R65). -/
def encodeWord : Instr → Word
  | .cls => 0x00E0
  | .ret => 0x00EE
  | .jp nnn => wordAddr 0x1 nnn
  | .call nnn => wordAddr 0x2 nnn
  | .seImm x nn => wordRegImm 0x3 x nn
  | .sneImm x nn => wordRegImm 0x4 x nn
  | .seReg x y n => wordRegReg 0x5 x y n
  | .ldImm x nn => wordRegImm 0x6 x nn
  | .addImm x nn => wordRegImm 0x7 x nn
  | .ldReg x y => wordRegReg 0x8 x y 0x0
  | .orReg x y => wordRegReg 0x8 x y 0x1
  | .andReg x y => wordRegReg 0x8 x y 0x2
  | .xorReg x y => wordRegReg 0x8 x y 0x3
  | .addReg x y => wordRegReg 0x8 x y 0x4
  | .subReg x y => wordRegReg 0x8 x y 0x5
  | .shr x y => wordRegReg 0x8 x y 0x6
  | .subnReg x y => wordRegReg 0x8 x y 0x7
  | .shl x y => wordRegReg 0x8 x y 0xE
  | .sneReg x y n => wordRegReg 0x9 x y n
  | .ldI nnn => wordAddr 0xA nnn
  | .jpV0 nnn => wordAddr 0xB nnn
  | .rnd x nn => wordRegImm 0xC x nn
  | .drw x y n => wordRegReg 0xD x y n
  | .skp x => wordRegImm 0xE x 0x9E
  | .sknp x => wordRegImm 0xE x 0xA1
  | .ldVxDT x => wordRegImm 0xF x 0x07
  | .ldVxK x => wordRegImm 0xF x 0x0A
  | .ldDTVx x => wordRegImm 0xF x 0x15
  | .ldSTVx x => wordRegImm 0xF x 0x18
  | .addI x => wordRegImm 0xF x 0x1E
  | .ldF x => wordRegImm 0xF x 0x29
  | .ldB x => wordRegImm 0xF x 0x33
  | .storeRegs x => wordRegImm 0xF x 0x55
  | .loadRegs x => wordRegImm 0xF x 0x65

/-- The two bytes of an instruction as memory holds them, high byte first (R43). -/
def encode (i : Instr) : List Byte := [highByte (encodeWord i), lowByte (encodeWord i)]

/-! ### The opcode table's numbering of bits -/

/-- An instruction given as a number in the numbering of spec/opcode_table.json (bit 0 the least significant bit of
the one word; the bits at and above `nbits` are 0): its opcode. -/
def wordOfTable (nbits w : Nat) : Word := BitVec.ofNat 16 (w % 2 ^ nbits)

/-- The instruction the decoder reads from the bytes of a table word, laid out big-endian (R43). -/
def decodeTableWord (nbits w : Nat) : Option Instr :=
  match decode [highByte (wordOfTable nbits w), lowByte (wordOfTable nbits w)] with
  | .ok (i, _) => some i
  | .error _ => none

end Sys2Proof
end

