-- ==== Sys2Proof/Config.lean ====
section
/-! DEFINITION. The parameters of an instance (R5) and the one free value of the model (R211). -/

namespace Sys2Proof

/-- SHIFT_SRC (R5, R132, D5): which register `SHR` and `SHL` shift. -/
inductive ShiftSrc where
  | vx
  | vy
deriving DecidableEq, Repr

/-- INDEX_ADD_VF (R5, R141, D6): what `ADD I, Vx` does to VF. -/
inductive IndexAddVF where
  | none
  | carry16
  | over12
deriving DecidableEq, Repr

/-- JUMP_OFFSET (R5, R109, D7). `v0Exact` is the only setting with a meaning; `undefinedSetting` stands for any
other, for which the spec says "a model must refuse one". -/
inductive JumpOffset where
  | v0Exact
  | undefinedSetting
deriving DecidableEq, Repr

/-- The parameters of one instance: "fixed for the life of an instance: no instruction and no host operation
changes them" (R5). DESIGN CHOICE, safe: State carries them, so that every claim can be made for every setting
(log 1). -/
structure Config where
  shiftSrc : ShiftSrc
  indexAddVF : IndexAddVF
  jumpOffset : JumpOffset
  /-- FONT: the 80 bytes of the glyph table (R24). -/
  font : Vector Byte 80
deriving DecidableEq, Repr

/-- THE FREE VALUE: the entropy byte an executed `RND` takes when the host has injected none. "The spec puts no law
on `rnd`: every value 0 to 255 is possible at every execution and successive values are unrelated" (R170, R211).
It has no body: nothing can be proved about its value. DESIGN CHOICE, safe (log 4). -/
opaque Config.freeEntropy : Nat → Byte

end Sys2Proof
end

