-- ==== Sys2Proof/Machine/Defaults.lean ====
section
/-! DEFINITION. The default parameters of an instance (R5). -/

namespace Sys2Proof.Machine

/-- The default FONT: the table of R24, digits 0 to F in order, five bytes each. UNVERIFIED, as the spec says: "the
customary CHIP-8 font" (D15, G3; log 8). -/
def defaultFont : Vector Byte 80 :=
  #v[0xF0, 0x90, 0x90, 0x90, 0xF0,  0x20, 0x60, 0x20, 0x20, 0x70,
     0xF0, 0x10, 0xF0, 0x80, 0xF0,  0xF0, 0x10, 0xF0, 0x10, 0xF0,
     0x90, 0x90, 0xF0, 0x10, 0x10,  0xF0, 0x80, 0xF0, 0x10, 0xF0,
     0xF0, 0x80, 0xF0, 0x90, 0xF0,  0xF0, 0x10, 0x20, 0x40, 0x40,
     0xF0, 0x90, 0xF0, 0x90, 0xF0,  0xF0, 0x90, 0xF0, 0x10, 0xF0,
     0xF0, 0x90, 0xF0, 0x90, 0x90,  0xE0, 0x90, 0xE0, 0x90, 0xE0,
     0xF0, 0x80, 0x80, 0x80, 0xF0,  0xE0, 0x90, 0x90, 0x90, 0xE0,
     0xF0, 0x80, 0xF0, 0x80, 0xF0,  0xF0, 0x80, 0xF0, 0x80, 0x80]

/-- The defaults of R5: SHIFT_SRC = VX, INDEX_ADD_VF = none, JUMP_OFFSET = v0_exact, FONT = the table of R24. -/
def defaultConfig : Config where
  shiftSrc := .vx
  indexAddVF := .none
  jumpOffset := .v0Exact
  font := defaultFont

end Sys2Proof.Machine
end

