-- ==== Sys2Proof/Machine/State.lean ====
section
/-! DEFINITION. The architectural state (R10), the reasons a STEP can stop (R190), and the state after RESET (R25). -/

namespace Sys2Proof.Machine

/-- Main memory (R22) as the cells that differ from the contents RESET gives it: addresses strictly rising, each at
most 0xFFF, no cell equal to what an unlisted address reads as (`Memory.wf` in Ops.lean). -/
abbrev Memory := List Host.Cell

/-- The display surface FB (R19): 32 rows of 64 one-bit pixels. Pixel `FB[y][x]` is bit `x` of row `y`. DESIGN CHOICE
of the representation, safe: nothing reads a row as a number (log 17). -/
abbrev Framebuffer := Vector (BitVec 64) 32

/-- The result of a successful STEP, `Ok(display_dirty, sound_stopped)` (R89). -/
structure StepOutput where
  displayDirty : Bool
  soundStopped : Bool
deriving DecidableEq, Repr

/-- The state: the tuple of R10, then the instance's parameters (R5), then the model's own fields for the input and
the output of a STEP (R211, R89), which the hardware does not keep (R23). -/
structure State where
  /-- `V[0..15]` (R11). -/
  v : Vector Byte 16
  /-- `I`, all 16 bits kept (R13). -/
  index : Word
  /-- `pc`: the address of the instruction being executed (R14). -/
  pc : Word
  /-- `STACK[0..15]`: return addresses, outside memory (R15). -/
  stack : Vector Word 16
  /-- `sp`: the number of live entries, "invariant: 0 ≤ sp ≤ 16" (R16). The type holds the invariant. -/
  sp : Fin 17
  /-- `DT` (R17). -/
  dt : Byte
  /-- `ST` (R18). -/
  st : Byte
  /-- `FB` (R19). -/
  fb : Framebuffer
  /-- `dirty` (R20). -/
  dirty : Bool
  /-- `KEY[0..15]`, `true` is pressed (R21). -/
  key : Vector Bool 16
  /-- `MEM` (R22). -/
  mem : Memory
  /-- The parameters of the instance (R5); no step changes them (log 1). -/
  cfg : Config
  /-- The model's own: entropy bytes the host has injected and no `RND` has taken (R211; log 4). -/
  entropy : List Byte
  /-- The model's own: how many entropy bytes `RND` has taken (R211; log 4). -/
  draws : Nat
  /-- The model's own: the result of the STEP just executed (R89; log 5). -/
  out : StepOutput
deriving DecidableEq, Repr

/-- The three sub-kinds of AddressOutOfRange, with the info each records (R194). -/
inductive AddressKind where
  /-- A fetch at pc >= 0xFFF (R44): the pc. -/
  | fetch (pc : Word)
  /-- A data range I .. I+n-1 that passes 0xFFF (R45): I and n. -/
  | data (base : Word) (n : Nat)
  /-- A key number above 15 (R176): V[X]. -/
  | key (k : Byte)
deriving DecidableEq, Repr

/-- The closed list of faults (R190). Each is the hardware's own report, so raising one is exact: safe. -/
inductive Fault where
  /-- Raised by dispatch for a word that selects no row (R191). Safe. -/
  | illegalOpcode (op : Word)
  /-- Raised by `CALL` at sp = 16, with the pc of the CALL (R192). Safe. -/
  | stackOverflow (pc : Word)
  /-- Raised by `RET` at sp = 0, with the pc of the RET (R193). Safe. -/
  | stackUnderflow (pc : Word)
  /-- Raised by the fetch, by DXYN, FX33, FX55, FX65 and by EX9E, EXA1 (R194). Safe. -/
  | addressOutOfRange (kind : AddressKind)
deriving DecidableEq, Repr

/-- What the model gives no meaning. -/
inductive Refusal where
  /-- Raised by exec's arm of an instruction that has no meaning yet. Safe. No arm raises it now. -/
  | notModelled (mnemonic : String)
  /-- Raised by `JP V0, NNN` in an instance whose JUMP_OFFSET is not `v0_exact`: "a model must refuse one" (R109, D7;
  log 2). Safe. -/
  | jumpOffsetUndefined
  /-- Raised by the host operation SET_KEY for an index of 16 or more: "the spec defines no effect and a model refuses
  it" (R208; log 25). Safe. No STEP raises it. -/
  | keyIndexUndefined (k : Nat)
deriving DecidableEq, Repr

/-- What a STEP, or the execution of one instruction, ends in. -/
abbrev StepOutcome := Host.Outcome State Fault Refusal

/-- RESET of an instance with the parameters `cfg`: the table of R25 and R220. V, I, STACK and dirty are 0 by the
spec's own choice D16 (DESIGN CHOICE, unsafe; log 3). -/
def State.resetWith (cfg : Config) : State where
  v := Vector.replicate 16 0
  index := 0
  pc := 0x0200
  stack := Vector.replicate 16 0
  sp := 0
  dt := 0
  st := 0
  fb := Vector.replicate 32 0
  dirty := false
  key := Vector.replicate 16 false
  mem := []
  cfg := cfg
  entropy := []
  draws := 0
  out := ⟨false, false⟩

/-- The machine right after RESET with the default parameters (R5, R25). -/
def State.reset : State := State.resetWith defaultConfig

end Sys2Proof.Machine
end

