-- ==== Sys2Proof/Machine/Ops.lean ====
section
/-! DEFINITION. The named operations over memory, registers, stack, display, keys, entropy and timers, and how a
STEP raises a fault. -/

namespace Sys2Proof.Machine

/-! ### Memory (R40 to R53) -/

/-- What an address reads as when nothing is listed for it: what RESET and LOAD put there, FONT at 0x000 to 0x04F and
zero elsewhere (R25, R41). -/
def Memory.background (font : Vector Byte 80) (a : Nat) : Byte :=
  if h : a < 80 then font[a] else 0

/-- The byte listed for an address, if any. -/
def Memory.lookup (a : Nat) : List Host.Cell → Option Byte
  | [] => none
  | c :: m => if c.1 = a then some c.2 else Memory.lookup a m

/-- Read one byte. -/
def Memory.read (font : Vector Byte 80) (m : Memory) (a : Nat) : Byte :=
  (Memory.lookup a m).getD (Memory.background font a)

/-- Put a cell before the first cell of a higher address. -/
def Memory.insert (c : Host.Cell) : List Host.Cell → List Host.Cell
  | [] => [c]
  | d :: m => if c.1 < d.1 then c :: d :: m else d :: Memory.insert c m

/-- Drop what is listed for an address. -/
def Memory.erase (a : Nat) : List Host.Cell → List Host.Cell
  | [] => []
  | c :: m => if c.1 = a then Memory.erase a m else c :: Memory.erase a m

/-- Write one byte and keep the canonical form: writing what an unlisted address reads as removes the entry. -/
def Memory.write (font : Vector Byte 80) (m : Memory) (a : Nat) (b : Byte) : Memory :=
  if b = Memory.background font a then Memory.erase a m else Memory.insert (a, b) (Memory.erase a m)

/-- The memory that holds the given bytes from address `a` on and the reset contents elsewhere (R224). -/
def Memory.ofBytes (font : Vector Byte 80) : Nat → List Byte → Memory
  | _, [] => []
  | a, b :: bs =>
    if b = Memory.background font a then Memory.ofBytes font (a + 1) bs else (a, b) :: Memory.ofBytes font (a + 1) bs

/-- The canonical form: addresses strictly rising, none above 0xFFF, no entry equal to what an unlisted address reads
as. -/
abbrev Memory.wf (font : Vector Byte 80) (m : Memory) : Prop :=
  m.Pairwise (fun c d => c.1 < d.1) ∧ ∀ c ∈ m, c.1 ≤ 0xFFF ∧ c.2 ≠ Memory.background font c.1

/-- MemRead(a, 1) (R7). The caller has checked the bound. -/
def State.readByte (s : State) (a : Nat) : Byte := Memory.read s.cfg.font s.mem a

/-- MemWrite(a, 1, b) (R7). The caller has checked the bound. -/
def State.writeByte (s : State) (a : Nat) (b : Byte) : State := { s with mem := Memory.write s.cfg.font s.mem a b }

/-- Single-byte writes at ascending addresses (R42). -/
def State.writeBytes (s : State) (a : Nat) : List Byte → State
  | [] => s
  | b :: bs => (s.writeByte a b).writeBytes (a + 1) bs

/-- Single-byte reads at ascending addresses (R42). -/
def State.readBytes (s : State) (a : Nat) : Nat → List Byte
  | 0 => []
  | n + 1 => s.readByte a :: s.readBytes (a + 1) n

/-! ### Registers and the program counter -/

/-- VF = V[15], the carry, borrow and collision flag (R12). -/
def regVF : RegIdx := 15

/-- V0 = V[0], read by `JP V0, NNN` (R11). -/
def regV0 : RegIdx := 0

/-- `V[r]` (R7). No register is hard-wired (R11). -/
def State.readV (s : State) (r : RegIdx) : Byte := s.v.get r

/-- `V[r] <- b` (R7). -/
def State.writeV (s : State) (r : RegIdx) (b : Byte) : State := { s with v := s.v.set r.val b r.isLt }

/-- `I <- w`. -/
def State.writeIndex (s : State) (w : Word) : State := { s with index := w }

/-- `pc <- target`: not checked when written (R87). -/
def State.setPc (s : State) (w : Word) : State := { s with pc := w }

/-- "a rule that does not write `pc` gets `pc <- pc + 2`" (R7, R86), modulo 2^16. -/
def State.advance (s : State) : State := s.setPc (s.pc + 2)

/-- "advance pc by 4 instead of 2 when the condition holds, by 2 otherwise" (R103). -/
def State.skipIf (s : State) (c : Bool) : State := s.setPc (s.pc + (if c then 4 else 2))

/-! ### Taking a fault -/

/-- TAKING A FAULT, the machine's only exception (R196, R197): the STEP ends with the fault as its result. Nothing is
saved, no register, mode or pc is written and there is no handler, so there is no return from it either (R200). The
state stays as it was before the STEP: `hostStep` in HostOps.lean keeps it. -/
def raiseFault (f : Fault) : StepOutcome := .fault f

/-- The spec's number of a fault (R190, D21). -/
def faultCode : Fault → Nat
  | .illegalOpcode _ => 1
  | .stackOverflow _ => 2
  | .stackUnderflow _ => 3
  | .addressOutOfRange _ => 4

/-! ### The return stack (R15, R16) -/

/-- `STACK[sp] <- ret; sp <- sp + 1`; none when the stack is full (R102). -/
def State.push (s : State) (ret : Word) : Option State :=
  if h : s.sp.val < 16 then
    some { s with stack := s.stack.set s.sp.val ret h, sp := ⟨s.sp.val + 1, by omega⟩ }
  else none

/-- `sp <- sp - 1`, and the entry at the new sp; none when the stack is empty (R101). The popped entry stays in STACK
(R15). -/
def State.pop (s : State) : Option (Word × State) :=
  if h : 0 < s.sp.val then
    some (s.stack[s.sp.val - 1]'(by omega), { s with sp := ⟨s.sp.val - 1, by omega⟩ })
  else none

/-! ### The display surface (R19, R161) -/

/-- `FB[y][x]`. -/
def Framebuffer.pixel (fb : Framebuffer) (x : Fin 64) (y : Fin 32) : Bool := (fb.get y).getLsbD x.val

/-- `FB[y][x] <- FB[y][x] ^ 1`. -/
def Framebuffer.toggle (fb : Framebuffer) (x : Fin 64) (y : Fin 32) : Framebuffer :=
  fb.set y.val (fb.get y ^^^ BitVec.twoPow 64 x.val) y.isLt

/-- Every pixel 0 (R160). -/
def Framebuffer.clear : Framebuffer := Vector.replicate 32 0

/-- A 1 bit of a sprite lands on (x, y): the pixel is toggled, and a pixel that was 1 is a collision (R162). -/
def blitPixel (acc : Framebuffer × Bool) (x : Fin 64) (y : Fin 32) : Framebuffer × Bool :=
  (Framebuffer.toggle acc.1 x y, acc.2 || Framebuffer.pixel acc.1 x y)

/-- Column `c` of a sprite row: bit `7 - c`, at x = (x0 + c) mod 64 (R161). -/
def blitColumn (x0 : Byte) (y : Fin 32) (b : Byte) (acc : Framebuffer × Bool) (c : Nat) : Framebuffer × Bool :=
  if b.getLsbD (7 - c) then blitPixel acc (Fin.ofNat 64 (x0.toNat + c)) y else acc

/-- One sprite row: columns 0 to 7. -/
def blitRow (x0 : Byte) (y : Fin 32) (b : Byte) (acc : Framebuffer × Bool) : Framebuffer × Bool :=
  (List.range 8).foldl (blitColumn x0 y b) acc

/-- The rows of a sprite from row `r` on, row `r` at y = (y0 + r) mod 32 (R161, R162). -/
def blitRows (x0 y0 : Byte) : Nat → List Byte → Framebuffer × Bool → Framebuffer × Bool
  | _, [], acc => acc
  | r, b :: bs, acc => blitRows x0 y0 (r + 1) bs (blitRow x0 (Fin.ofNat 32 (y0.toNat + r)) b acc)

/-- `dirty <- 1`, and the STEP's `display_dirty` output is 1 (R20, R89, C5). -/
def State.markDirty (s : State) : State := { s with dirty := true, out := { s.out with displayDirty := true } }

/-! ### Keys (R21) -/

/-- `KEY[k]`. -/
def State.keyDown (s : State) (k : Fin 16) : Bool := s.key.get k

/-- "the least such k" with KEY[k] = 1, if any key is pressed (R177, D12; log 15). -/
def State.lowestKey (s : State) : Option (Fin 16) := (List.finRange 16).find? (fun k => s.keyDown k)

/-! ### Entropy (R211) -/

/-- The entropy byte of this STEP: the first byte the host has injected, else the free value of this draw (log 4). -/
def State.entropyByte (s : State) : Byte :=
  match s.entropy with
  | b :: _ => b
  | [] => Config.freeEntropy s.draws

/-- "The instruction consumes exactly one entropy byte per execution" (R170). -/
def State.consumeEntropy (s : State) : State := { s with entropy := s.entropy.tail, draws := s.draws + 1 }

/-! ### The frame of a STEP (R80) -/

/-- Stage 1, fetch: a fetch at pc >= 0xFFF faults (R44); else the two bytes at pc, big-endian (R43, R81). -/
def State.fetch (s : State) : Except Fault Word :=
  if s.pc.toNat ≥ 0xFFF then .error (.addressOutOfRange (.fetch s.pc))
  else .ok (wordOfBytes (s.readByte s.pc.toNat) (s.readByte (s.pc.toNat + 1)))

/-- Stages 1 to 3: fetch, decode, dispatch. -/
def State.fetchInstr (s : State) : Except Fault Instr :=
  match s.fetch with
  | .error f => .error f
  | .ok op =>
    match decodeWord op with
    | .ok i => .ok i
    | .error _ => .error (.illegalOpcode op)

/-- A STEP starts with its outputs at 0: they are outputs of that STEP only (R89). -/
def State.beginStep (s : State) : State := { s with out := ⟨false, false⟩ }

/-- "decrements each nonzero timer by one"; at 0 it stays 0 (R17, R88). -/
def tickDown (t : Byte) : Byte := if t = 0 then 0 else t - 1

/-- Stage 6, the tick: both timers, and `sound_stopped` when ST went from 1 to 0 in it (R88, R89). -/
def State.tick (s : State) : State :=
  { s with dt := tickDown s.dt, st := tickDown s.st, out := { s.out with soundStopped := s.st == 1 } }

/-- What a STEP adds after its instruction: the tick when it succeeded, nothing when it faulted (R80, R88, R196). -/
def completeStep : StepOutcome → StepOutcome
  | .next s => .next s.tick
  | .fault f => .fault f
  | .refused r => .refused r

/-- A word stored big-endian where the next fetch reads it; out of memory's bounds nothing is stored (log 23). -/
def State.storeAtPc (s : State) (op : Word) : State :=
  if s.pc.toNat ≥ 0xFFF then s else s.writeBytes s.pc.toNat [highByte op, lowByte op]

end Sys2Proof.Machine
end

