-- ==== Sys2Proof/Machine/Operands.lean ====
section
/-! DEFINITION. The operand forms: immediates (R63), the shift source (R132), the data range at I (R45, R146), the key
number (R176). -/

namespace Sys2Proof.Machine

/-- NNN zero-extended to 16 bits (R63). -/
def addrWord (nnn : Addr) : Word := nnn.setWidth 16

/-- A byte zero-extended to 16 bits (R6, R63). -/
def byteWord (b : Byte) : Word := b.setWidth 16

/-- The operand of `SHR` and `SHL`: V[X] or V[Y] by SHIFT_SRC (R132, D5). -/
def State.shiftOperand (s : State) (x y : RegIdx) : Byte :=
  match s.cfg.shiftSrc with
  | .vx => s.readV x
  | .vy => s.readV y

/-- `EA(k) = I + k` with k = 0: the first address of a data access, never wrapped (R146). -/
def State.dataBase (s : State) : Nat := s.index.toNat

/-- `I + n - 1 <= 0xFFF`; an access of no bytes has no bound (R45). -/
def dataInRange (base n : Nat) : Bool := decide (n = 0 ∨ base + n - 1 ≤ 0xFFF)

/-- The check of a data access of n bytes at I, before any byte is read or written and before any register changes
(R45, D9): the instruction goes on, or raises AddressOutOfRange(data, I, n). -/
def State.withData (s : State) (n : Nat) (go : StepOutcome) : StepOutcome :=
  if dataInRange s.dataBase n then go else raiseFault (.addressOutOfRange (.data s.index n))

/-- A key number 0 to 15; none above 15: it is not masked (R176, D11). -/
def keyNumber (b : Byte) : Option (Fin 16) :=
  if h : b.toNat ≤ 15 then some ⟨b.toNat, by omega⟩ else none

/-- The key V[X] names: the instruction goes on with it, or raises AddressOutOfRange(key, V[X]) (R176). -/
def State.withKey (s : State) (x : RegIdx) (go : Fin 16 → StepOutcome) : StepOutcome :=
  match keyNumber (s.readV x) with
  | some k => go k
  | none => raiseFault (.addressOutOfRange (.key (s.readV x)))

/-- `V[0] .. V[x]`, in order (R144). -/
def State.regsUpTo (s : State) (x : RegIdx) : List Byte := (s.v.toList).take (x.val + 1)

/-- `V[k] <- MEM[I + k]` for k = 0 to x; registers above x keep their values (R145). -/
def State.loadRegsUpTo (s : State) (x : RegIdx) : State :=
  { s with v := Vector.ofFn fun k => if k ≤ x then s.readByte (s.dataBase + k.val) else s.readV k }

end Sys2Proof.Machine
end

