-- ==== Sys2Proof/Machine/Control.lean ====
section
/-! DEFINITION. Control transfer (41_control_flow.md). None of these checks the new pc (R87, R111). -/

namespace Sys2Proof.Machine

/-- `JP NNN` (R100). -/
def execJp (nnn : Addr) (s : State) : StepOutcome := .next (s.setPc (addrWord nnn))

/-- `CALL NNN` (R102): pushes the address after the CALL (C2, D17; log 18), or raises StackOverflow. -/
def execCall (nnn : Addr) (s : State) : StepOutcome :=
  match s.push (s.pc + 2) with
  | some t => .next (t.setPc (addrWord nnn))
  | none => raiseFault (.stackOverflow s.pc)

/-- `RET` (R101): pc is the popped entry, with no "+2", or StackUnderflow is raised. -/
def execRet (s : State) : StepOutcome :=
  match s.pop with
  | some (w, t) => .next (t.setPc w)
  | none => raiseFault (.stackUnderflow s.pc)

/-- `JP V0, NNN` (R109): (NNN + V[0]) mod 2^16 under JUMP_OFFSET = v0_exact; any other setting is refused (D7; log
2). -/
def execJpV0 (nnn : Addr) (s : State) : StepOutcome :=
  match s.cfg.jumpOffset with
  | .v0Exact => .next (s.setPc (addrWord nnn + byteWord (s.readV regV0)))
  | .undefinedSetting => .refused .jumpOffsetUndefined

/-- `SE Vx, NN` (R104). -/
def execSeImm (x : RegIdx) (nn : Byte) (s : State) : StepOutcome := .next (s.skipIf (s.readV x == nn))

/-- `SNE Vx, NN` (R105). -/
def execSneImm (x : RegIdx) (nn : Byte) (s : State) : StepOutcome := .next (s.skipIf (s.readV x != nn))

/-- `SE Vx, Vy` (R106); the nibble N is ignored (R67). -/
def execSeReg (x y : RegIdx) (s : State) : StepOutcome := .next (s.skipIf (s.readV x == s.readV y))

/-- `SNE Vx, Vy` (R107); the nibble N is ignored (R67). -/
def execSneReg (x y : RegIdx) (s : State) : StepOutcome := .next (s.skipIf (s.readV x != s.readV y))

end Sys2Proof.Machine
end

