-- ==== Sys2Proof/Machine/Flags.lean ====
section
/-! DEFINITION. The arithmetic of the registers (R120) and the flag computations (R12, R121): operands as unsigned
numbers, the exact result, then the reduction modulo 2^w. -/

namespace Sys2Proof.Machine

/-- A flag value, 0 or 1 (R12). -/
def flagByte (c : Bool) : Byte := if c then 1 else 0

/-- `(a + b) mod 256` (R123, R128). -/
def sumByte (a b : Byte) : Byte := BitVec.ofNat 8 (a.toNat + b.toNat)

/-- Carry: "sets VF=1 iff a+b > 255" (R128). -/
def carryFlag (a b : Byte) : Bool := decide (a.toNat + b.toNat > 255)

/-- `(a - b) mod 256`, `a - b + 256` when a < b (R129). -/
def diffByte (a b : Byte) : Byte := BitVec.ofNat 8 (a.toNat + 256 - b.toNat)

/-- Not-borrow: "VF=1 when A≥B" (R129). -/
def notBorrowFlag (a b : Byte) : Bool := decide (a.toNat ≥ b.toNat)

/-- `s >> 1`, bit 7 of the result 0 (R131). -/
def shiftRightByte (a : Byte) : Byte := a >>> 1

/-- The bit a right shift by one shifts out (R131). -/
def shiftedOutRight (a : Byte) : Bool := a.getLsbD 0

/-- `(s << 1) mod 256`, bit 0 of the result 0 (R133). -/
def shiftLeftByte (a : Byte) : Byte := a <<< 1

/-- The bit a left shift by one shifts out (R133). -/
def shiftedOutLeft (a : Byte) : Bool := a.getLsbD 7

/-- "then the result is written to V[X]; then the flag, 0 or 1, is written to V[0xF], last" (R121, D8; log 12). -/
def State.writeResultAndFlag (s : State) (x : RegIdx) (res : Byte) (flag : Bool) : State :=
  (s.writeV x res).writeV regVF (flagByte flag)

/-- The unbounded sum of `ADD I, Vx` (R141). -/
def indexSum (i : Word) (b : Byte) : Nat := i.toNat + b.toNat

/-- What `ADD I, Vx` writes to VF: nothing, the carry out of 16 bits, or the passing of 0x0FFF (R141, D6; log 22). -/
def indexAddFlag (mode : IndexAddVF) (sum : Nat) : Option Bool :=
  match mode with
  | .none => none
  | .carry16 => some (decide (sum > 0xFFFF))
  | .over12 => some (decide (sum > 0x0FFF))

/-- Write a flag to VF, if the instruction has one. -/
def State.writeFlagIf (s : State) : Option Bool → State
  | some c => s.writeV regVF (flagByte c)
  | none => s

end Sys2Proof.Machine
end

