-- ==== Sys2Proof/Machine/Display.lean ====
section
/-! DEFINITION. The display instructions (44_display.md). -/

namespace Sys2Proof.Machine

/-- `CLS` (R160): every pixel 0; dirty. -/
def execCls (s : State) : StepOutcome := .next ({ s with fb := Framebuffer.clear }.markDirty).advance

/-- What a draw of these sprite rows at (x0, y0) makes of the display, and whether a pixel went from 1 to 0 (R162). -/
def State.blit (s : State) (x0 y0 : Byte) (rows : List Byte) : Framebuffer × Bool :=
  blitRows x0 y0 0 rows (s.fb, false)

/-- `DRW Vx, Vy, N` (R162): the range check first, the coordinates read before VF is written, VF written last; N = 0
draws no rows (R163, D13; log 16). -/
def execDrw (x y : RegIdx) (n : Nibble) (s : State) : StepOutcome :=
  s.withData n.toNat
    (let r := s.blit (s.readV x) (s.readV y) (s.readBytes s.dataBase n.toNat)
     .next ((({ s with fb := r.1 }.writeV regVF (flagByte r.2)).markDirty).advance))

end Sys2Proof.Machine
end

