-- ==== Sys2Proof/Machine/IndexMemory.lean ====
section
/-! DEFINITION. The index register and the memory instructions (43_index_memory.md). Block transfers and the BCD store
leave I unchanged (R147, D18; log 19). -/

namespace Sys2Proof.Machine

/-- `LD I, NNN` (R140). -/
def execLdI (nnn : Addr) (s : State) : StepOutcome := .next (s.writeIndex (addrWord nnn)).advance

/-- `ADD I, Vx` (R141): the sum modulo 2^16; V[X] is read before VF is written. -/
def execAddI (x : RegIdx) (s : State) : StepOutcome :=
  .next ((s.writeIndex (BitVec.ofNat 16 (indexSum s.index (s.readV x)))).writeFlagIf
    (indexAddFlag s.cfg.indexAddVF (indexSum s.index (s.readV x)))).advance

/-- `LD F, Vx` (R142): the whole 8-bit value times 5, not masked (D27; log 30). -/
def execLdF (x : RegIdx) (s : State) : StepOutcome := .next (s.writeIndex (byteWord (s.readV x) * 5)).advance

/-- The decimal digits of a byte: hundreds, tens, ones (R143). -/
def bcdDigits (v : Byte) : List Byte :=
  [BitVec.ofNat 8 (v.toNat / 100), BitVec.ofNat 8 (v.toNat / 10 % 10), BitVec.ofNat 8 (v.toNat % 10)]

/-- `LD B, Vx` (R143): three bytes at I, or AddressOutOfRange before any write. -/
def execLdB (x : RegIdx) (s : State) : StepOutcome :=
  s.withData 3 (.next (s.writeBytes s.dataBase (bcdDigits (s.readV x))).advance)

/-- `LD [I], Vx` (R144): V[0] to V[X] at I, or AddressOutOfRange before any write. -/
def execStoreRegs (x : RegIdx) (s : State) : StepOutcome :=
  s.withData (x.val + 1) (.next (s.writeBytes s.dataBase (s.regsUpTo x)).advance)

/-- `LD Vx, [I]` (R145): V[0] to V[X] from I, or AddressOutOfRange before any register changes. -/
def execLoadRegs (x : RegIdx) (s : State) : StepOutcome :=
  s.withData (x.val + 1) (.next (s.loadRegsUpTo x).advance)

end Sys2Proof.Machine
end

