-- ==== Sys2Proof/Machine/LoadAlu.lean ====
section
/-! DEFINITION. Load immediate, add immediate and the register ALU group (42_load_alu.md). All leave pc to the
generic advance and can raise no fault. -/

namespace Sys2Proof.Machine

/-- `LD Vx, NN` (R122). -/
def execLdImm (x : RegIdx) (nn : Byte) (s : State) : StepOutcome := .next (s.writeV x nn).advance

/-- `ADD Vx, NN` (R123): wraps, VF is not written. -/
def execAddImm (x : RegIdx) (nn : Byte) (s : State) : StepOutcome :=
  .next (s.writeV x (sumByte (s.readV x) nn)).advance

/-- `LD Vx, Vy` (R124). -/
def execLdReg (x y : RegIdx) (s : State) : StepOutcome := .next (s.writeV x (s.readV y)).advance

/-- `OR Vx, Vy` (R125): VF is not written (D19; log 19). -/
def execOrReg (x y : RegIdx) (s : State) : StepOutcome := .next (s.writeV x (s.readV x ||| s.readV y)).advance

/-- `AND Vx, Vy` (R126): VF is not written (D19; log 19). -/
def execAndReg (x y : RegIdx) (s : State) : StepOutcome := .next (s.writeV x (s.readV x &&& s.readV y)).advance

/-- `XOR Vx, Vy` (R127): VF is not written (D19; log 19). -/
def execXorReg (x y : RegIdx) (s : State) : StepOutcome := .next (s.writeV x (s.readV x ^^^ s.readV y)).advance

/-- `ADD Vx, Vy` (R128): VF = carry, written last. -/
def execAddReg (x y : RegIdx) (s : State) : StepOutcome :=
  .next (s.writeResultAndFlag x (sumByte (s.readV x) (s.readV y)) (carryFlag (s.readV x) (s.readV y))).advance

/-- `SUB Vx, Vy` (R129): V[X] - V[Y], VF = not-borrow, written last. -/
def execSubReg (x y : RegIdx) (s : State) : StepOutcome :=
  .next (s.writeResultAndFlag x (diffByte (s.readV x) (s.readV y)) (notBorrowFlag (s.readV x) (s.readV y))).advance

/-- `SUBN Vx, Vy` (R130): V[Y] - V[X], VF = not-borrow, written last. -/
def execSubnReg (x y : RegIdx) (s : State) : StepOutcome :=
  .next (s.writeResultAndFlag x (diffByte (s.readV y) (s.readV x)) (notBorrowFlag (s.readV y) (s.readV x))).advance

/-- `SHR Vx, Vy` (R131): VF = the bit shifted out, written last. -/
def execShr (x y : RegIdx) (s : State) : StepOutcome :=
  .next (s.writeResultAndFlag x (shiftRightByte (s.shiftOperand x y)) (shiftedOutRight (s.shiftOperand x y))).advance

/-- `SHL Vx, Vy` (R133): VF = the bit shifted out, written last. -/
def execShl (x y : RegIdx) (s : State) : StepOutcome :=
  .next (s.writeResultAndFlag x (shiftLeftByte (s.shiftOperand x y)) (shiftedOutLeft (s.shiftOperand x y))).advance

end Sys2Proof.Machine
end

