-- ==== Sys2Proof/Machine/TimersKeys.lean ====
section
/-! DEFINITION. Random, timer and key instructions (45_timers_keys_random.md). The tick that follows each in the same
STEP is `completeStep`'s (R88). -/

namespace Sys2Proof.Machine

/-- `RND Vx, NN` (R170): the entropy byte of this STEP masked by NN; exactly one byte is consumed. -/
def execRnd (x : RegIdx) (nn : Byte) (s : State) : StepOutcome :=
  .next (s.consumeEntropy.writeV x (s.entropyByte &&& nn)).advance

/-- `LD Vx, DT` (R171): DT as it was at the start of the STEP. -/
def execLdVxDT (x : RegIdx) (s : State) : StepOutcome := .next (s.writeV x s.dt).advance

/-- `LD DT, Vx` (R172). -/
def execLdDTVx (x : RegIdx) (s : State) : StepOutcome := .next { s with dt := s.readV x }.advance

/-- `LD ST, Vx` (R173). -/
def execLdSTVx (x : RegIdx) (s : State) : StepOutcome := .next { s with st := s.readV x }.advance

/-- `SKP Vx` (R174). -/
def execSkp (x : RegIdx) (s : State) : StepOutcome := s.withKey x fun k => .next (s.skipIf (s.keyDown k))

/-- `SKNP Vx` (R175). -/
def execSknp (x : RegIdx) (s : State) : StepOutcome := s.withKey x fun k => .next (s.skipIf (!s.keyDown k))

/-- `LD Vx, K` (R177): the lowest pressed key, or pc stays and nothing else changes. -/
def execLdVxK (x : RegIdx) (s : State) : StepOutcome :=
  match s.lowestKey with
  | some k => .next (s.writeV x (BitVec.ofNat 8 k.val)).advance
  | none => .next s

end Sys2Proof.Machine
end

