-- ==== Sys2Proof/Machine/Step.lean ====
section
/-! DEFINITION. The STEP (R80): fetch, decode, dispatch, execute, pc, tick, result. -/

namespace Sys2Proof.Machine

/-- One STEP. A fault in stage 1 or 3 ends it at once; else the instruction is executed with the outputs cleared and
the tick follows if it succeeded. -/
def step (s : State) : Host.Outcome State Fault Refusal :=
  match s.fetchInstr with
  | .error f => raiseFault f
  | .ok i => completeStep (exec i s.beginStep)

/-- The state with the given opcode-table word stored where the next STEP fetches (log 23). -/
def State.withFetchWord (s : State) (nbits w : Nat) : State := s.storeAtPc (wordOfTable nbits w)

end Sys2Proof.Machine
end

