-- ==== Sys2Proof/Machine/HostOps.lean ====
section
/-! DEFINITION. The host interface (R203): every operation as one atomic move between STEPs. -/

namespace Sys2Proof.Machine

/-- The operations of R203. -/
inductive HostOp where
  | reset
  | load (rom : List Byte)
  | step (rnd : Byte)
  | setKey (k : Nat) (pressed : Bool)
  | readFb
  | readDirty
  | clearDirty
  | readTimers
deriving DecidableEq, Repr

/-- What an operation answers the host. -/
inductive HostReply where
  /-- The operation is done and returns nothing. -/
  | done
  /-- `LoadError::TooLarge` (R195). -/
  | tooLarge
  /-- A successful STEP: `Ok(display_dirty, sound_stopped)` (R89). -/
  | ok (out : StepOutput)
  /-- A STEP that faulted (R197). -/
  | fault (f : Fault)
  /-- The model gives the operation no meaning. -/
  | refused (r : Refusal)
  /-- The 2048 pixels (R204). -/
  | pixels (fb : Framebuffer)
  /-- The dirty bit (R207). -/
  | dirtyBit (b : Bool)
  /-- DT and ST (R205). -/
  | timers (dt st : Byte)
deriving DecidableEq, Repr

/-- RESET (R220): all state to its reset value; the parameters and the binding of the entropy source are not state and
stay (R5, R220; log 24). -/
def hostReset (s : State) : State := { State.resetWith s.cfg with entropy := s.entropy, draws := s.draws }

/-- LOAD (R224, R225): TooLarge above 3584 bytes with nothing changed; else memory becomes zero, the font and the ROM
at 0x200, and nothing else changes (D20; log 20). -/
def hostLoad (rom : List Byte) (s : State) : HostReply × State :=
  if romFits rom then (.done, { s with mem := Memory.ofBytes s.cfg.font 0x200 rom }) else (.tooLarge, s)

/-- STEP(rnd) (R80, R211): one cycle with `rnd` as its entropy input, ignored unless the instruction is `RND`. After a
fault the state is the one before the STEP (R196). The host's other injected bytes are left for later STEPs. -/
def hostStep (rnd : Byte) (s : State) : HostReply × State :=
  match step { s with entropy := rnd :: s.entropy } with
  | .next t => (.ok t.out, { t with entropy := s.entropy })
  | .fault f => (.fault f, s)
  | .refused r => (.refused r, s)

/-- SET_KEY (R208): `KEY[k] <- pressed`, nothing else; an index of 16 or more is refused (log 25). -/
def hostSetKey (k : Nat) (pressed : Bool) (s : State) : HostReply × State :=
  if h : keyIndexInDomain k = true then
    (.done, { s with key := s.key.set k pressed (Nat.lt_succ_of_le (of_decide_eq_true h)) })
  else (.refused (.keyIndexUndefined k), s)

/-- One host operation. -/
def hostOp (op : HostOp) (s : State) : HostReply × State :=
  match op with
  | .reset => (.done, hostReset s)
  | .load rom => hostLoad rom s
  | .step rnd => hostStep rnd s
  | .setKey k pressed => hostSetKey k pressed s
  | .readFb => (.pixels s.fb, s)
  | .readDirty => (.dirtyBit s.dirty, s)
  | .clearDirty => (.done, { s with dirty := false })
  | .readTimers => (.timers s.dt s.st, s)

/-- The state after a list of host operations, the first one first. -/
def hostRun : List HostOp → State → State
  | [], s => s
  | op :: ops, s => hostRun ops (hostOp op s).2

end Sys2Proof.Machine
end

