-- ==== Sys2Proof/Safety.lean ====
section
/-! DEFINITION. The terms claims use: what a state keeps of another, the states a host can reach, and the invariant. -/

namespace Sys2Proof.Machine

/-- Every general register outside `ds` keeps its value. -/
def KeepsRegsExcept (ds : List RegIdx) (s t : State) : Prop := ∀ r, r ∉ ds → t.readV r = s.readV r

/-- Every byte of memory reads as before. -/
def KeepsMemory (s t : State) : Prop := ∀ a, t.readByte a = s.readByte a

/-- Every byte of memory outside the `n` bytes at `base` reads as before. -/
def KeepsMemoryOutside (base n : Nat) (s t : State) : Prop :=
  ∀ a, a < base ∨ base + n ≤ a → t.readByte a = s.readByte a

/-- I is unchanged. -/
def KeepsIndex (s t : State) : Prop := t.index = s.index

/-- Every stack entry and sp are unchanged. -/
def KeepsStack (s t : State) : Prop := t.stack = s.stack ∧ t.sp = s.sp

/-- DT and ST are unchanged. -/
def KeepsTimers (s t : State) : Prop := t.dt = s.dt ∧ t.st = s.st

/-- The pixels, the dirty bit and the outputs of the STEP are unchanged. -/
def KeepsDisplay (s t : State) : Prop := t.fb = s.fb ∧ t.dirty = s.dirty ∧ t.out = s.out

/-- The key latch and the parameters are unchanged. -/
def KeepsKeysAndParams (s t : State) : Prop := t.key = s.key ∧ t.cfg = s.cfg

/-- No entropy byte is consumed. -/
def KeepsEntropy (s t : State) : Prop := t.entropy = s.entropy ∧ t.draws = s.draws

/-- Nothing but pc and the registers in `ds` may change: the other registers, I, the stack, the timers, the display, the keys, the
parameters, the entropy input and all of memory are as before. -/
def OnlyRegs (ds : List RegIdx) (s t : State) : Prop :=
  KeepsRegsExcept ds s t ∧ KeepsMemory s t ∧ KeepsIndex s t ∧ KeepsStack s t ∧ KeepsTimers s t ∧ KeepsDisplay s t ∧
    KeepsKeysAndParams s t ∧ KeepsEntropy s t

/-- The invariant of a state: memory has its canonical form, and a STEP that reported `sound_stopped` left ST at 0. -/
def StateInv (s : State) : Prop := Memory.wf s.cfg.font s.mem ∧ (s.out.soundStopped = true → s.st = 0)

/-- The states a host reaches: RESET with any parameters, then any operations of R203 in any order (R209). -/
inductive Reachable : State → Prop
  | reset (cfg : Config) : Reachable (State.resetWith cfg)
  | op (o : HostOp) (s : State) : Reachable s → Reachable (hostOp o s).2

/-- The next STEP succeeds: neither a fault nor a refusal. A safe run is one whose every STEP is so (R197). -/
def StepSucceeds (s : State) : Prop := ∃ t, step s = .next t

/-- The core waits in an FX0A: the word at pc is `LD Vx, K` and no key is pressed (R177, R213). -/
def KeyWaiting (x : RegIdx) (s : State) : Prop := s.fetchInstr = .ok (.ldVxK x) ∧ s.lowestKey = none

/-- "the program has ended at `a`": pc = a and the word there is the self-jump (R232, D30). -/
def EndedAt (a : Addr) (s : State) : Prop := s.pc = addrWord a ∧ s.fetch = .ok (wordAddr 0x1 a)

end Sys2Proof.Machine
end

