-- ==== Sys2Proof/Certificates/Slice0/Obligations.lean ====
section
/-! DEFINITION. The statements for the provers. Arithmetic is said on natural numbers, as the rules say it; every
statement about an instruction says that it completes, its result and its frame. -/

open Sys2Proof Sys2Proof.Machine

/-! ### What the statements say about the rules' own tables -/

namespace Sys2Proof.Spec

/-- A function applied to the next state of an outcome. -/
def mapNext (f : State → State) : StepOutcome → StepOutcome
  | .next s => .next (f s)
  | .fault e => .fault e
  | .refused r => .refused r

/-- The key latch read by number; no key above 15. -/
def keyAt (s : State) (k : Nat) : Bool := s.key.toList.getD k false

/-- The stack read by number. -/
def stackAt (s : State) (k : Nat) : Word := s.stack.toList.getD k 0

/-- The table of R86: pc after a successful STEP that executed `i`, from the state before it. -/
def pcAfter (i : Instr) (s : State) : Nat :=
  match i with
  | .jp nnn => nnn.toNat
  | .call nnn => nnn.toNat
  | .ret => (stackAt s (s.sp.val - 1)).toNat
  | .jpV0 nnn => (nnn.toNat + (s.readV 0).toNat) % 2 ^ 16
  | .seImm x nn => (s.pc.toNat + if s.readV x = nn then 4 else 2) % 2 ^ 16
  | .sneImm x nn => (s.pc.toNat + if s.readV x ≠ nn then 4 else 2) % 2 ^ 16
  | .seReg x y _ => (s.pc.toNat + if s.readV x = s.readV y then 4 else 2) % 2 ^ 16
  | .sneReg x y _ => (s.pc.toNat + if s.readV x ≠ s.readV y then 4 else 2) % 2 ^ 16
  | .skp x => (s.pc.toNat + if keyAt s (s.readV x).toNat = true then 4 else 2) % 2 ^ 16
  | .sknp x => (s.pc.toNat + if keyAt s (s.readV x).toNat = false then 4 else 2) % 2 ^ 16
  | .ldVxK _ => if ∃ k < 16, keyAt s k = true then (s.pc.toNat + 2) % 2 ^ 16 else s.pc.toNat
  | _ => (s.pc.toNat + 2) % 2 ^ 16

/-- How many bytes at I an instruction accesses (R45): N for DXYN, 3 for FX33, X + 1 for FX55 and FX65. -/
def dataBytes : Instr → Nat
  | .drw _ _ n => n.toNat
  | .ldB _ => 3
  | .storeRegs x => x.val + 1
  | .loadRegs x => x.val + 1
  | _ => 0

/-- The one execute-stage fault an instruction can raise, and when (R190, R194, R198). -/
def execFault (i : Instr) (s : State) : Option Fault :=
  match i with
  | .call _ => if s.sp.val = 16 then some (.stackOverflow s.pc) else none
  | .ret => if s.sp.val = 0 then some (.stackUnderflow s.pc) else none
  | .skp x => if (s.readV x).toNat > 15 then some (.addressOutOfRange (.key (s.readV x))) else none
  | .sknp x => if (s.readV x).toNat > 15 then some (.addressOutOfRange (.key (s.readV x))) else none
  | i =>
    if 0 < dataBytes i ∧ s.index.toNat + dataBytes i - 1 > 0xFFF then
      some (.addressOutOfRange (.data s.index (dataBytes i)))
    else none

/-- The instructions that draw or clear (R20). -/
def isDisplay : Instr → Bool
  | .cls => true
  | .drw .. => true
  | _ => false

/-- The conditional skip family (R103). -/
def isSkip : Instr → Bool
  | .seImm .. => true
  | .sneImm .. => true
  | .seReg .. => true
  | .sneReg .. => true
  | .skp .. => true
  | .sknp .. => true
  | _ => false

/-- The instruction that writes ST (R173). -/
def writesST : Instr → Bool
  | .ldSTVx _ => true
  | _ => false

/-- The instructions that write VF as a side effect (R12's list). -/
def setsVF (c : Config) : Instr → Bool
  | .addReg .. => true
  | .subReg .. => true
  | .subnReg .. => true
  | .shr .. => true
  | .shl .. => true
  | .drw .. => true
  | .addI _ => c.indexAddVF != .none
  | _ => false

/-- Sprite column `c` of sprite row `r` is a 1 bit that lands on pixel (x, y) for a draw at (x0, y0) (R161). -/
def spriteOn (s : State) (x0 y0 : Nat) (n : Nat) (x : Fin 64) (y : Fin 32) : Prop :=
  ∃ r < n, ∃ c < 8, (s.readByte (s.index.toNat + r)).getLsbD (7 - c) = true ∧
    x.val = (x0 + c) % 64 ∧ y.val = (y0 + r) % 32

/-- Everything but the display, the outputs, pc and the registers in `ds` is as before. -/
def OnlyDisplay (ds : List RegIdx) (s t : State) : Prop :=
  KeepsRegsExcept ds s t ∧ KeepsMemory s t ∧ KeepsIndex s t ∧ KeepsStack s t ∧ KeepsTimers s t ∧
    t.out.soundStopped = s.out.soundStopped ∧ KeepsKeysAndParams s t ∧ KeepsEntropy s t

/-- Everything but pc and the `n` bytes of memory at `base` is as before. -/
def OnlyMemory (base n : Nat) (s t : State) : Prop :=
  KeepsRegsExcept [] s t ∧ KeepsMemoryOutside base n s t ∧ KeepsIndex s t ∧ KeepsStack s t ∧ KeepsTimers s t ∧
    KeepsDisplay s t ∧ KeepsKeysAndParams s t ∧ KeepsEntropy s t

/-- Everything but pc, I and the registers in `ds` is as before. -/
def OnlyIndex (ds : List RegIdx) (s t : State) : Prop :=
  KeepsRegsExcept ds s t ∧ KeepsMemory s t ∧ KeepsStack s t ∧ KeepsTimers s t ∧ KeepsDisplay s t ∧
    KeepsKeysAndParams s t ∧ KeepsEntropy s t

end Sys2Proof.Spec

open Sys2Proof.Spec

/-! ### Encoding -/

/-- Words written out from the spec's encodings decode to the instructions they stand for: the source's three words
(R73) and one word of every family and format. -/
def Obligations.SpecWordsDecode : Prop :=
  decodeWord 0x6005 = .ok (.ldImm 0 5) ∧ decodeWord 0x6105 = .ok (.ldImm 1 5) ∧
  decodeWord 0x9010 = .ok (.sneReg 0 1 0) ∧ decodeWord 0x00E0 = .ok .cls ∧ decodeWord 0x00EE = .ok .ret ∧
  decodeWord 0x2210 = .ok (.call 0x210) ∧ decodeWord 0x8126 = .ok (.shr 1 2) ∧ decodeWord 0xD125 = .ok (.drw 1 2 5) ∧
  decodeWord 0xE2A1 = .ok (.sknp 2) ∧ decodeWord 0xF265 = .ok (.loadRegs 2) ∧
  decodeWord 0xF166 = .error (.illegalOpcode 0xF166)

/-- Every instruction, with every operand at every value its encoding admits, is decoded back from its two bytes, and
the bytes after it are left. -/
def Obligations.DecodeOfEncodeIsInstruction : Prop :=
  ∀ (i : Instr) (rest : List Byte), decode (encode i ++ rest) = .ok (i, rest)

/-- No bit of a legal word is dropped: encoding what a word decodes to gives the word back. -/
def Obligations.EncodeOfDecodeIsWord : Prop :=
  ∀ (op : Word) (i : Instr), decodeWord op = .ok i → encodeWord i = op

/-- R83: every opcode value selects exactly one of the 34 rows and is its instruction, or selects none and is
IllegalOpcode; a STEP that fetches it executes that instruction or raises IllegalOpcode. -/
def Obligations.DispatchIsTotal : Prop :=
  opcodeMap.length = 34 ∧
  ∀ op : Word,
    ((∃ r, opcodeMap.filter (fun r => r.selects op) = [r] ∧ decodeWord op = .ok (r.build (fieldsOf op)) ∧
        ∀ s : State, s.fetch = .ok op → step s = completeStep (exec (r.build (fieldsOf op)) s.beginStep)) ∨
     (opcodeMap.filter (fun r => r.selects op) = [] ∧ decodeWord op = .error (.illegalOpcode op) ∧
        ∀ s : State, s.fetch = .ok op → step s = .fault (.illegalOpcode op)))

/-- A STEP raises IllegalOpcode for each of the words R66 lists (`illegalWord`, written from R66's list and not from the
opcode table), and for no other (R191; that every other 0NNN is illegal is the spec's choice D3, log 11). -/
def Obligations.IllegalOpcodeExactlyForListedWords : Prop :=
  (∀ (s : State) (op : Word), s.fetch = .ok op →
    ((step s = .fault (.illegalOpcode op) ↔ illegalWord op = true) ∧
     ∀ op', step s = .fault (.illegalOpcode op') → op' = op)) ∧
  (∀ (s : State) (f : Fault) (op : Word), s.fetch = .error f → step s ≠ .fault (.illegalOpcode op))

/-! ### The STEP -/

/-- A STEP runs the instruction its two bytes at pc decode to, big-endian, with the outputs cleared before it and the
tick after it (the order is the spec's choice D24, log 21); a fetch at pc >= 0xFFF (D10, log 13) and an illegal word
fault (R80). -/
def Obligations.StepRunsDecodedInstruction : Prop :=
  ∀ s : State,
    (s.pc.toNat ≥ 0xFFF → step s = .fault (.addressOutOfRange (.fetch s.pc))) ∧
    ∀ op : Word, s.pc.toNat < 0xFFF →
      op.toNat = (s.readByte s.pc.toNat).toNat * 256 + (s.readByte (s.pc.toNat + 1)).toNat →
      (∀ e, decodeWord op = .error e → step s = .fault (.illegalOpcode op)) ∧
      ∀ i, decodeWord op = .ok i →
        (∀ u, exec i { s with out := ⟨false, false⟩ } = .next u → step s = .next u.tick) ∧
        (∀ f, exec i { s with out := ⟨false, false⟩ } = .fault f → step s = .fault f) ∧
        (∀ r, exec i { s with out := ⟨false, false⟩ } = .refused r → step s = .refused r)

/-- The tick and the result of every successful STEP: both timers one lower than the instruction left them, 0 staying
0, nothing else changed but the outputs; `sound_stopped` exactly when ST went from 1 to 0; `display_dirty` exactly for
CLS and DRW. The tick also follows a key-wait poll (R88, R89; the spec's choices D22 and D24, log 21). -/
def Obligations.TickAndResultOfEveryStep : Prop :=
  ∀ (s t : State) (i : Instr), s.fetchInstr = .ok i → step s = .next t →
    ∃ u, exec i s.beginStep = .next u ∧
      t.dt.toNat = u.dt.toNat - 1 ∧ t.st.toNat = u.st.toNat - 1 ∧
      (t.out.soundStopped = true ↔ u.st.toNat = 1) ∧
      (t.out.displayDirty = true ↔ isDisplay i = true) ∧
      t = { u with dt := t.dt, st := t.st, out := t.out }

/-- The table of R86: pc after a successful STEP, for every instruction; CALL pushes pc + 2 (D17, log 18); and a skip
depends on nothing that the skipped two bytes hold: with any other memory from which the same skip is fetched, the STEP succeeds
with the same pc. -/
def Obligations.PcAfterStepIsTable : Prop :=
  ∀ (s t : State) (i : Instr), s.fetchInstr = .ok i → step s = .next t →
    t.pc.toNat = pcAfter i s ∧
    (∀ nnn, i = .call nnn → (stackAt t s.sp.val).toNat = (s.pc.toNat + 2) % 2 ^ 16) ∧
    (isSkip i = true → ∀ m : Memory, { s with mem := m }.fetchInstr = .ok i →
      ∃ t', step { s with mem := m } = .next t' ∧ t'.pc = t.pc)

/-! ### Control transfer -/

/-- R100 `JP NNN`. -/
def Obligations.JpSetsPc : Prop :=
  ∀ nnn : Addr, decodeWord (0x1#4 ++ nnn) = .ok (.jp nnn) ∧
    ∀ s : State, ∃ t, exec (.jp nnn) s = .next t ∧ t.pc.toNat = nnn.toNat ∧ OnlyRegs [] s t

/-- `CALL NNN` (R102): pushes the address after the CALL (the spec's choice D17, log 18), or StackOverflow at sp = 16. -/
def Obligations.CallPushesReturnAddress : Prop :=
  ∀ nnn : Addr, decodeWord (0x2#4 ++ nnn) = .ok (.call nnn) ∧
    ∀ s : State,
      (s.sp.val < 16 → ∃ t, exec (.call nnn) s = .next t ∧ t.pc.toNat = nnn.toNat ∧ t.sp.val = s.sp.val + 1 ∧
        (stackAt t s.sp.val).toNat = (s.pc.toNat + 2) % 2 ^ 16 ∧
        (∀ k, k ≠ s.sp.val → stackAt t k = stackAt s k) ∧
        KeepsRegsExcept [] s t ∧ KeepsMemory s t ∧ KeepsIndex s t ∧ KeepsTimers s t ∧ KeepsDisplay s t ∧
        KeepsKeysAndParams s t ∧ KeepsEntropy s t) ∧
      (s.sp.val = 16 → exec (.call nnn) s = .fault (.stackOverflow s.pc))

/-- R101 `RET`: pc is the popped entry, no "+2"; the entry stays; StackUnderflow at sp = 0. -/
def Obligations.RetPopsReturnAddress : Prop :=
  decodeWord 0x00EE = .ok .ret ∧
  ∀ s : State,
    (0 < s.sp.val → ∃ t, exec .ret s = .next t ∧ t.pc = stackAt s (s.sp.val - 1) ∧ t.sp.val = s.sp.val - 1 ∧
      t.stack = s.stack ∧ KeepsRegsExcept [] s t ∧ KeepsMemory s t ∧ KeepsIndex s t ∧ KeepsTimers s t ∧
      KeepsDisplay s t ∧ KeepsKeysAndParams s t ∧ KeepsEntropy s t) ∧
    (s.sp.val = 0 → exec .ret s = .fault (.stackUnderflow s.pc))

/-- A RET that finds the stack as a CALL left it resumes after that CALL, at the depth before it. -/
def Obligations.RetResumesAfterItsCall : Prop :=
  ∀ (s t u : State) (nnn : Addr), exec (.call nnn) s = .next t → u.stack = t.stack → u.sp = t.sp →
    ∃ w, exec .ret u = .next w ∧ w.pc = s.pc + 2 ∧ w.sp = s.sp

/-- `JP V0, NNN` (R109): NNN + V[0] modulo 2^16 under JUMP_OFFSET = v0_exact; any other setting is refused (D7, log 2). -/
def Obligations.JpV0AddsV0 : Prop :=
  ∀ nnn : Addr, decodeWord (0xB#4 ++ nnn) = .ok (.jpV0 nnn) ∧
    ∀ s : State,
      (s.cfg.jumpOffset = .v0Exact → ∃ t, exec (.jpV0 nnn) s = .next t ∧
        t.pc.toNat = (nnn.toNat + (s.readV 0).toNat) % 2 ^ 16 ∧ OnlyRegs [] s t) ∧
      (s.cfg.jumpOffset = .undefinedSetting → exec (.jpV0 nnn) s = .refused .jumpOffsetUndefined)

/-- R103, R104, R105: `SE Vx, NN` and `SNE Vx, NN`. -/
def Obligations.ImmediateSkips : Prop :=
  ∀ (x : RegIdx) (nn : Byte),
    decodeWord (0x3#4 ++ BitVec.ofNat 4 x.val ++ nn) = .ok (.seImm x nn) ∧
    decodeWord (0x4#4 ++ BitVec.ofNat 4 x.val ++ nn) = .ok (.sneImm x nn) ∧
    ∀ s : State,
      (∃ t, exec (.seImm x nn) s = .next t ∧
        t.pc.toNat = (s.pc.toNat + if (s.readV x).toNat = nn.toNat then 4 else 2) % 2 ^ 16 ∧ OnlyRegs [] s t) ∧
      (∃ t, exec (.sneImm x nn) s = .next t ∧
        t.pc.toNat = (s.pc.toNat + if (s.readV x).toNat ≠ nn.toNat then 4 else 2) % 2 ^ 16 ∧ OnlyRegs [] s t)

/-- `SE Vx, Vy` and `SNE Vx, Vy` (R106, R107), with the low nibble ignored (R67; the spec's choice D4, log 10). -/
def Obligations.RegisterSkips : Prop :=
  ∀ (x y : RegIdx) (n : Nibble),
    decodeWord (0x5#4 ++ BitVec.ofNat 4 x.val ++ BitVec.ofNat 4 y.val ++ n) = .ok (.seReg x y n) ∧
    decodeWord (0x9#4 ++ BitVec.ofNat 4 x.val ++ BitVec.ofNat 4 y.val ++ n) = .ok (.sneReg x y n) ∧
    ∀ s : State,
      (∃ t, exec (.seReg x y n) s = .next t ∧
        t.pc.toNat = (s.pc.toNat + if (s.readV x).toNat = (s.readV y).toNat then 4 else 2) % 2 ^ 16 ∧
        OnlyRegs [] s t) ∧
      (∃ t, exec (.sneReg x y n) s = .next t ∧
        t.pc.toNat = (s.pc.toNat + if (s.readV x).toNat ≠ (s.readV y).toNat then 4 else 2) % 2 ^ 16 ∧
        OnlyRegs [] s t)

/-! ### Load and ALU -/

/-- `LD Vx, NN` and `LD Vx, Vy` (R122, R124); VF changes only as an ordinary destination (for `LD Vx, Vy` the spec's
choice D19, log 19). -/
def Obligations.RegisterLoads : Prop :=
  ∀ (x y : RegIdx) (nn : Byte),
    decodeWord (0x6#4 ++ BitVec.ofNat 4 x.val ++ nn) = .ok (.ldImm x nn) ∧
    decodeWord (0x8#4 ++ BitVec.ofNat 4 x.val ++ BitVec.ofNat 4 y.val ++ 0x0#4) = .ok (.ldReg x y) ∧
    ∀ s : State,
      (∃ t, exec (.ldImm x nn) s = .next t ∧ t.readV x = nn ∧ t.pc.toNat = (s.pc.toNat + 2) % 2 ^ 16 ∧
        OnlyRegs [x] s t) ∧
      (∃ t, exec (.ldReg x y) s = .next t ∧ t.readV x = s.readV y ∧ t.pc.toNat = (s.pc.toNat + 2) % 2 ^ 16 ∧
        OnlyRegs [x] s t)

/-- R123 `ADD Vx, NN`: wraps modulo 256, VF is not written on overflow. -/
def Obligations.AddImmediateWraps : Prop :=
  ∀ (x : RegIdx) (nn : Byte),
    decodeWord (0x7#4 ++ BitVec.ofNat 4 x.val ++ nn) = .ok (.addImm x nn) ∧
    ∀ s : State, ∃ t, exec (.addImm x nn) s = .next t ∧
      (t.readV x).toNat = ((s.readV x).toNat + nn.toNat) % 256 ∧ t.pc.toNat = (s.pc.toNat + 2) % 2 ^ 16 ∧
      OnlyRegs [x] s t

/-- `OR`, `AND`, `XOR` (R125, R126, R127), bit by bit; VF is not written (the spec's choice D19, log 19). -/
def Obligations.LogicOperations : Prop :=
  ∀ (x y : RegIdx),
    decodeWord (0x8#4 ++ BitVec.ofNat 4 x.val ++ BitVec.ofNat 4 y.val ++ 0x1#4) = .ok (.orReg x y) ∧
    decodeWord (0x8#4 ++ BitVec.ofNat 4 x.val ++ BitVec.ofNat 4 y.val ++ 0x2#4) = .ok (.andReg x y) ∧
    decodeWord (0x8#4 ++ BitVec.ofNat 4 x.val ++ BitVec.ofNat 4 y.val ++ 0x3#4) = .ok (.xorReg x y) ∧
    ∀ s : State,
      (∃ t, exec (.orReg x y) s = .next t ∧
        (∀ j < 8, (t.readV x).getLsbD j = ((s.readV x).getLsbD j || (s.readV y).getLsbD j)) ∧
        t.pc.toNat = (s.pc.toNat + 2) % 2 ^ 16 ∧ OnlyRegs [x] s t) ∧
      (∃ t, exec (.andReg x y) s = .next t ∧
        (∀ j < 8, (t.readV x).getLsbD j = ((s.readV x).getLsbD j && (s.readV y).getLsbD j)) ∧
        t.pc.toNat = (s.pc.toNat + 2) % 2 ^ 16 ∧ OnlyRegs [x] s t) ∧
      (∃ t, exec (.xorReg x y) s = .next t ∧
        (∀ j < 8, (t.readV x).getLsbD j = ((s.readV x).getLsbD j ^^ (s.readV y).getLsbD j)) ∧
        t.pc.toNat = (s.pc.toNat + 2) % 2 ^ 16 ∧ OnlyRegs [x] s t)

/-- `ADD Vx, Vy` (R128): "add sets VF=1 iff a+b > 255; result equals (a+b) mod 256". For X = F the flag is what VF ends
as (that the flag is written last is the spec's choice D8, log 12). -/
def Obligations.AddSetsCarry : Prop :=
  ∀ (x y : RegIdx),
    decodeWord (0x8#4 ++ BitVec.ofNat 4 x.val ++ BitVec.ofNat 4 y.val ++ 0x4#4) = .ok (.addReg x y) ∧
    ∀ s : State, ∃ t, exec (.addReg x y) s = .next t ∧
      (x ≠ 15 → (t.readV x).toNat = ((s.readV x).toNat + (s.readV y).toNat) % 256) ∧
      (t.readV 15).toNat = (if (s.readV x).toNat + (s.readV y).toNat > 255 then 1 else 0) ∧
      t.pc.toNat = (s.pc.toNat + 2) % 2 ^ 16 ∧ OnlyRegs [x, 15] s t

/-- `SUB Vx, Vy` and `SUBN Vx, Vy` (R129, R130): "subtract (a−b) sets VF=1 iff a≥b; result equals (a−b) mod 256"; for
X = F as in `AddSetsCarry` (the spec's choice D8, log 12). -/
def Obligations.SubtractsSetNotBorrow : Prop :=
  ∀ (x y : RegIdx),
    decodeWord (0x8#4 ++ BitVec.ofNat 4 x.val ++ BitVec.ofNat 4 y.val ++ 0x5#4) = .ok (.subReg x y) ∧
    decodeWord (0x8#4 ++ BitVec.ofNat 4 x.val ++ BitVec.ofNat 4 y.val ++ 0x7#4) = .ok (.subnReg x y) ∧
    ∀ s : State,
      (∃ t, exec (.subReg x y) s = .next t ∧
        (x ≠ 15 → ((t.readV x).toNat : Int) = ((s.readV x).toNat - (s.readV y).toNat : Int) % 256) ∧
        (t.readV 15).toNat = (if (s.readV x).toNat ≥ (s.readV y).toNat then 1 else 0) ∧
        t.pc.toNat = (s.pc.toNat + 2) % 2 ^ 16 ∧ OnlyRegs [x, 15] s t) ∧
      (∃ t, exec (.subnReg x y) s = .next t ∧
        (x ≠ 15 → ((t.readV x).toNat : Int) = ((s.readV y).toNat - (s.readV x).toNat : Int) % 256) ∧
        (t.readV 15).toNat = (if (s.readV y).toNat ≥ (s.readV x).toNat then 1 else 0) ∧
        t.pc.toNat = (s.pc.toNat + 2) % 2 ^ 16 ∧ OnlyRegs [x, 15] s t)

/-- `SHR` and `SHL` (R131, R133) of V[X] or V[Y] by SHIFT_SRC (R132, D5): the distance is one bit, the vacated bit is 0,
VF is the bit shifted out, written last (D8; logs 12 and 31). -/
def Obligations.ShiftsByOne : Prop :=
  ∀ (x y : RegIdx),
    decodeWord (0x8#4 ++ BitVec.ofNat 4 x.val ++ BitVec.ofNat 4 y.val ++ 0x6#4) = .ok (.shr x y) ∧
    decodeWord (0x8#4 ++ BitVec.ofNat 4 x.val ++ BitVec.ofNat 4 y.val ++ 0xE#4) = .ok (.shl x y) ∧
    ∀ (s : State) (a : Nat), a = (if s.cfg.shiftSrc = .vx then s.readV x else s.readV y).toNat →
      (∃ t, exec (.shr x y) s = .next t ∧ (x ≠ 15 → (t.readV x).toNat = a / 2) ∧ (t.readV 15).toNat = a % 2 ∧
        t.pc.toNat = (s.pc.toNat + 2) % 2 ^ 16 ∧ OnlyRegs [x, 15] s t) ∧
      (∃ t, exec (.shl x y) s = .next t ∧ (x ≠ 15 → (t.readV x).toNat = 2 * a % 256) ∧ (t.readV 15).toNat = a / 128 ∧
        t.pc.toNat = (s.pc.toNat + 2) % 2 ^ 16 ∧ OnlyRegs [x, 15] s t)

/-! ### Index and memory -/

/-- R140 `LD I, NNN`. -/
def Obligations.LoadIndex : Prop :=
  ∀ nnn : Addr, decodeWord (0xA#4 ++ nnn) = .ok (.ldI nnn) ∧
    ∀ s : State, ∃ t, exec (.ldI nnn) s = .next t ∧ t.index.toNat = nnn.toNat ∧
      t.pc.toNat = (s.pc.toNat + 2) % 2 ^ 16 ∧ OnlyIndex [] s t

/-- `LD F, Vx` (R142): V[X] times 5, the whole byte (the spec's choice D27, log 30), so that digit d's glyph is at
d * 5. -/
def Obligations.FontAddress : Prop :=
  ∀ x : RegIdx, decodeWord (0xF#4 ++ BitVec.ofNat 4 x.val ++ 0x29#8) = .ok (.ldF x) ∧
    ∀ s : State, ∃ t, exec (.ldF x) s = .next t ∧ t.index.toNat = (s.readV x).toNat * 5 ∧
      t.pc.toNat = (s.pc.toNat + 2) % 2 ^ 16 ∧ OnlyIndex [] s t

/-- `ADD I, Vx` (R141): the sum modulo 2^16; VF untouched, or the flag of carry16 or over12, by INDEX_ADD_VF (the spec's
choice D6, log 22). -/
def Obligations.IndexAdd : Prop :=
  ∀ x : RegIdx, decodeWord (0xF#4 ++ BitVec.ofNat 4 x.val ++ 0x1E#8) = .ok (.addI x) ∧
    ∀ (s : State) (sum : Nat), sum = s.index.toNat + (s.readV x).toNat →
      ∃ t, exec (.addI x) s = .next t ∧ t.index.toNat = sum % 2 ^ 16 ∧
        (s.cfg.indexAddVF = .none → t.readV 15 = s.readV 15) ∧
        (s.cfg.indexAddVF = .carry16 → (t.readV 15).toNat = if sum > 0xFFFF then 1 else 0) ∧
        (s.cfg.indexAddVF = .over12 → (t.readV 15).toNat = if sum > 0x0FFF then 1 else 0) ∧
        t.pc.toNat = (s.pc.toNat + 2) % 2 ^ 16 ∧ OnlyIndex [15] s t

/-- `LD B, Vx` (R143): the three decimal digits at I, I+1, I+2, or AddressOutOfRange with nothing written (the spec's
choice D9, log 28); I is unchanged (D18, log 19). -/
def Obligations.BcdStore : Prop :=
  ∀ x : RegIdx, decodeWord (0xF#4 ++ BitVec.ofNat 4 x.val ++ 0x33#8) = .ok (.ldB x) ∧
    ∀ s : State,
      (s.dataBase + 2 ≤ 0xFFF → ∃ t, exec (.ldB x) s = .next t ∧
        (t.readByte s.dataBase).toNat = (s.readV x).toNat / 100 ∧
        (t.readByte (s.dataBase + 1)).toNat = (s.readV x).toNat / 10 % 10 ∧
        (t.readByte (s.dataBase + 2)).toNat = (s.readV x).toNat % 10 ∧
        t.pc.toNat = (s.pc.toNat + 2) % 2 ^ 16 ∧ OnlyMemory s.dataBase 3 s t) ∧
      (s.dataBase + 2 > 0xFFF → exec (.ldB x) s = .fault (.addressOutOfRange (.data s.index 3)))

/-- `LD [I], Vx` (R144): V[0] to V[X] at I to I+X, or AddressOutOfRange with nothing written (the spec's choice D9,
log 28); I is unchanged (D18, log 19). -/
def Obligations.BlockStore : Prop :=
  ∀ x : RegIdx, decodeWord (0xF#4 ++ BitVec.ofNat 4 x.val ++ 0x55#8) = .ok (.storeRegs x) ∧
    ∀ s : State,
      (s.dataBase + x.val ≤ 0xFFF → ∃ t, exec (.storeRegs x) s = .next t ∧
        (∀ k : RegIdx, k ≤ x → t.readByte (s.dataBase + k.val) = s.readV k) ∧
        t.pc.toNat = (s.pc.toNat + 2) % 2 ^ 16 ∧ OnlyMemory s.dataBase (x.val + 1) s t) ∧
      (s.dataBase + x.val > 0xFFF →
        exec (.storeRegs x) s = .fault (.addressOutOfRange (.data s.index (x.val + 1))))

/-- `LD Vx, [I]` (R145): V[0] to V[X] from I to I+X, registers above X unchanged, or AddressOutOfRange before any change
(the spec's choice D9, log 28); I is unchanged (D18, log 19). -/
def Obligations.BlockLoad : Prop :=
  ∀ x : RegIdx, decodeWord (0xF#4 ++ BitVec.ofNat 4 x.val ++ 0x65#8) = .ok (.loadRegs x) ∧
    ∀ s : State,
      (s.dataBase + x.val ≤ 0xFFF → ∃ t, exec (.loadRegs x) s = .next t ∧
        (∀ k : RegIdx, k ≤ x → t.readV k = s.readByte (s.dataBase + k.val)) ∧
        t.pc.toNat = (s.pc.toNat + 2) % 2 ^ 16 ∧
        OnlyRegs ((List.finRange 16).filter fun k => decide (k ≤ x)) s t) ∧
      (s.dataBase + x.val > 0xFFF →
        exec (.loadRegs x) s = .fault (.addressOutOfRange (.data s.index (x.val + 1))))

/-- A block load after a block store at the same I gives V[0] to V[X] back, whatever happened to the registers
meanwhile. -/
def Obligations.BlockLoadUndoesBlockStore : Prop :=
  ∀ (s t : State) (x : RegIdx) (w : Vector Byte 16), exec (.storeRegs x) s = .next t →
    ∃ u, exec (.loadRegs x) { t with v := w } = .next u ∧ ∀ k : RegIdx, k ≤ x → u.readV k = s.readV k

/-- Stores are seen by later fetches (R51): a word whose two bytes a block store has just written is the word fetched
there. -/
def Obligations.StoredWordIsFetched : Prop :=
  ∀ (s t u : State) (x k : RegIdx) (j : RegIdx), exec (.storeRegs x) s = .next t → j.val = k.val + 1 → j ≤ x →
    u.mem = t.mem → u.cfg = t.cfg → u.pc.toNat = s.dataBase + k.val →
    u.fetch = .ok (wordOfBytes (s.readV k) (s.readV j))

/-! ### Display -/

/-- `CLS` (R160): every pixel 0, dirty, the STEP's display output (the spec's choice D22, log 21). -/
def Obligations.ClearDisplay : Prop :=
  decodeWord 0x00E0 = .ok .cls ∧
  ∀ s : State, ∃ t, exec .cls s = .next t ∧ (∀ x y, t.fb.pixel x y = false) ∧ t.dirty = true ∧
    t.out.displayDirty = true ∧ t.pc.toNat = (s.pc.toNat + 2) % 2 ^ 16 ∧ OnlyDisplay [] s t

/-- R162 `DRW Vx, Vy, N`: every pixel is XORed with the sprite bit that lands on it, VF is 1 exactly when some pixel
went from 1 to 0, dirty is set; or AddressOutOfRange with nothing changed. Which bit of a byte is which column is R161
(the spec's choice D14, log 17). -/
def Obligations.DrawXorsSprite : Prop :=
  ∀ (x y : RegIdx) (n : Nibble),
    decodeWord (0xD#4 ++ BitVec.ofNat 4 x.val ++ BitVec.ofNat 4 y.val ++ n) = .ok (.drw x y n) ∧
    ∀ s : State,
      (n.toNat = 0 ∨ s.dataBase + n.toNat - 1 ≤ 0xFFF →
        ∃ t, exec (.drw x y n) s = .next t ∧
          (∀ px py, (t.fb.pixel px py ≠ s.fb.pixel px py) ↔
            spriteOn s (s.readV x).toNat (s.readV y).toNat n.toNat px py) ∧
          ((∃ px py, s.fb.pixel px py = true ∧ t.fb.pixel px py = false) → (t.readV 15).toNat = 1) ∧
          ((¬ ∃ px py, s.fb.pixel px py = true ∧ t.fb.pixel px py = false) → (t.readV 15).toNat = 0) ∧
          t.dirty = true ∧ t.out.displayDirty = true ∧ t.pc.toNat = (s.pc.toNat + 2) % 2 ^ 16 ∧
          OnlyDisplay [15] s t) ∧
      (0 < n.toNat ∧ s.dataBase + n.toNat - 1 > 0xFFF →
        exec (.drw x y n) s = .fault (.addressOutOfRange (.data s.index n.toNat)))

/-- `DRW` with N = 0 (R163; the spec's choice D13, log 16): whatever I holds, no pixel changes, VF is 0, dirty is set. -/
def Obligations.DrawOfNoRows : Prop :=
  ∀ (x y : RegIdx) (s : State), ∃ t, exec (.drw x y 0) s = .next t ∧ t.fb = s.fb ∧ (t.readV 15).toNat = 0 ∧
    t.dirty = true ∧ t.out.displayDirty = true ∧ t.pc.toNat = (s.pc.toNat + 2) % 2 ^ 16 ∧ OnlyDisplay [15] s t

/-- XOR idempotence (R162 b, R164): drawing the identical sprite again at the same coordinates restores the display,
whatever it was; from a clear display the first draw reports no collision and the second reports one exactly when the
sprite has a 1 bit. -/
def Obligations.DrawTwiceRestoresDisplay : Prop :=
  ∀ (s t u : State) (x y : RegIdx) (n : Nibble), exec (.drw x y n) s = .next t →
    u.fb = t.fb → u.index = s.index → (∀ a, u.readByte a = s.readByte a) →
    u.readV x = s.readV x → u.readV y = s.readV y →
    ∃ w, exec (.drw x y n) u = .next w ∧ w.fb = s.fb ∧
      ((∀ px py, s.fb.pixel px py = false) →
        (t.readV 15).toNat = 0 ∧
        ((∃ r < n.toNat, s.readByte (s.index.toNat + r) ≠ 0) → (w.readV 15).toNat = 1) ∧
        ((¬ ∃ r < n.toNat, s.readByte (s.index.toNat + r) ≠ 0) → (w.readV 15).toNat = 0))

/-! ### Random, timers, keys -/

/-- `RND Vx, NN` (R170, R211): V[X] is the entropy byte AND NN, for EVERY entropy byte the host gives the STEP or has
injected, and for some byte about which nothing is known where it gave none; one byte is consumed, and no other
instruction consumes any. That the byte is free is the spec's choice D28; the injected list, the counter of draws and
what `hostStep` leaves of the list are the model's own (log 4). -/
def Obligations.RandomMasksEntropyByte : Prop :=
  ∀ (x : RegIdx) (nn : Byte), decodeWord (0xC#4 ++ BitVec.ofNat 4 x.val ++ nn) = .ok (.rnd x nn) ∧
    (∀ s : State, ∃ t, exec (.rnd x nn) s = .next t ∧
      (∀ b rest, s.entropy = b :: rest → t.readV x = b &&& nn ∧ t.entropy = rest) ∧
      (s.entropy = [] → ∃ b : Byte, t.readV x = b &&& nn) ∧
      t.draws = s.draws + 1 ∧ t.pc.toNat = (s.pc.toNat + 2) % 2 ^ 16 ∧
      KeepsRegsExcept [x] s t ∧ KeepsMemory s t ∧ KeepsIndex s t ∧ KeepsStack s t ∧ KeepsTimers s t ∧
      KeepsDisplay s t ∧ KeepsKeysAndParams s t) ∧
    (∀ (s : State) (rnd : Byte), s.fetchInstr = .ok (.rnd x nn) →
      ∃ out t, hostStep rnd s = (.ok out, t) ∧ t.readV x = rnd &&& nn ∧ t.entropy = s.entropy) ∧
    (∀ (i : Instr) (s t : State), (∀ y mm, i ≠ .rnd y mm) → exec i s = .next t → KeepsEntropy s t)

/-- R171, R172, R173: the timer moves of the execute stage; and no instruction reads ST: every instruction does the same
whatever ST holds, and leaves it but for `LD ST, Vx`. -/
def Obligations.TimerMoves : Prop :=
  ∀ x : RegIdx,
    decodeWord (0xF#4 ++ BitVec.ofNat 4 x.val ++ 0x07#8) = .ok (.ldVxDT x) ∧
    decodeWord (0xF#4 ++ BitVec.ofNat 4 x.val ++ 0x15#8) = .ok (.ldDTVx x) ∧
    decodeWord (0xF#4 ++ BitVec.ofNat 4 x.val ++ 0x18#8) = .ok (.ldSTVx x) ∧
    ∀ s : State,
      (∃ t, exec (.ldVxDT x) s = .next t ∧ t.readV x = s.dt ∧ t.pc.toNat = (s.pc.toNat + 2) % 2 ^ 16 ∧
        OnlyRegs [x] s t) ∧
      (∃ t, exec (.ldDTVx x) s = .next t ∧ t.dt = s.readV x ∧ t.st = s.st ∧
        t.pc.toNat = (s.pc.toNat + 2) % 2 ^ 16 ∧ KeepsRegsExcept [] s t ∧ KeepsMemory s t ∧ KeepsIndex s t ∧
        KeepsStack s t ∧ KeepsDisplay s t ∧ KeepsKeysAndParams s t ∧ KeepsEntropy s t) ∧
      (∃ t, exec (.ldSTVx x) s = .next t ∧ t.st = s.readV x ∧ t.dt = s.dt ∧
        t.pc.toNat = (s.pc.toNat + 2) % 2 ^ 16 ∧ KeepsRegsExcept [] s t ∧ KeepsMemory s t ∧ KeepsIndex s t ∧
        KeepsStack s t ∧ KeepsDisplay s t ∧ KeepsKeysAndParams s t ∧ KeepsEntropy s t) ∧
      (∀ (i : Instr) (v : Byte),
        exec i { s with st := v } = mapNext (fun t => if writesST i then t else { t with st := v }) (exec i s))

/-- `SKP Vx` and `SKNP Vx` (R174, R175): skips on the latch as the host left it; a key number above 15 is
AddressOutOfRange(key) (R176; the spec's choice D11, log 14). -/
def Obligations.KeySkips : Prop :=
  ∀ x : RegIdx,
    decodeWord (0xE#4 ++ BitVec.ofNat 4 x.val ++ 0x9E#8) = .ok (.skp x) ∧
    decodeWord (0xE#4 ++ BitVec.ofNat 4 x.val ++ 0xA1#8) = .ok (.sknp x) ∧
    ∀ s : State,
      ((s.readV x).toNat ≤ 15 →
        (∃ t, exec (.skp x) s = .next t ∧ OnlyRegs [] s t ∧
          t.pc.toNat = (s.pc.toNat + if keyAt s (s.readV x).toNat = true then 4 else 2) % 2 ^ 16) ∧
        (∃ t, exec (.sknp x) s = .next t ∧ OnlyRegs [] s t ∧
          t.pc.toNat = (s.pc.toNat + if keyAt s (s.readV x).toNat = false then 4 else 2) % 2 ^ 16)) ∧
      ((s.readV x).toNat > 15 →
        exec (.skp x) s = .fault (.addressOutOfRange (.key (s.readV x))) ∧
        exec (.sknp x) s = .fault (.addressOutOfRange (.key (s.readV x))))

/-- `LD Vx, K` (R177; the spec's choice D12, log 15): the least pressed key and pc + 2, or nothing changes. -/
def Obligations.KeyWait : Prop :=
  ∀ x : RegIdx, decodeWord (0xF#4 ++ BitVec.ofNat 4 x.val ++ 0x0A#8) = .ok (.ldVxK x) ∧
    ∀ s : State,
      (∀ k < 16, keyAt s k = true → (∀ j < k, keyAt s j = false) →
        ∃ t, exec (.ldVxK x) s = .next t ∧ (t.readV x).toNat = k ∧ t.pc.toNat = (s.pc.toNat + 2) % 2 ^ 16 ∧
          OnlyRegs [x] s t) ∧
      ((∀ k < 16, keyAt s k = false) → exec (.ldVxK x) s = .next s)

/-- The key-wait over any number of STEPs: while no key is pressed pc and every register stay, the timers count down by
one a STEP; once the host presses a key the next STEP stores its index and moves on (R177; the spec's choices D12 and
D24, logs 15 and 21). -/
def Obligations.KeyWaitHoldsUntilKey : Prop :=
  ∀ (x : RegIdx) (s : State) (n : Nat), KeyWaiting x s →
    ∃ t, core.run n s = .next t ∧ KeyWaiting x t ∧ t.pc = s.pc ∧ t.v = s.v ∧ t.mem = s.mem ∧ t.fb = s.fb ∧
      t.dt.toNat = s.dt.toNat - n ∧ t.st.toNat = s.st.toNat - n ∧
      ∀ k : Fin 16, ∃ u, step (hostSetKey k.val true t).2 = .next u ∧ (u.readV x).toNat = k.val ∧ u.pc = s.pc + 2

/-- The end of a program (R232, the spec's definition D30): at a self-jump every STEP succeeds, for ever, and changes only the timers and the
outputs. -/
def Obligations.IdleLoopRunsForEver : Prop :=
  ∀ (a : Addr) (s : State) (n : Nat), EndedAt a s →
    ∃ t, core.run n s = .next t ∧ EndedAt a t ∧ t.dt.toNat = s.dt.toNat - n ∧ t.st.toNat = s.st.toNat - n ∧
      t = { s with dt := t.dt, st := t.st, out := t.out }

/-! ### Faults -/

/-- When a STEP faults, and with what: the fetch first, then the word, then the one fault of the instruction (R190 to
R198; the spec's choices D3, D10 and D11 for the illegal 0NNN, the fetch bound and the key number, logs 11, 13, 14). -/
def Obligations.StepFaultsExactlyWhen : Prop :=
  ∀ (s : State) (f : Fault), step s = .fault f ↔
    (s.pc.toNat ≥ 0xFFF ∧ f = .addressOutOfRange (.fetch s.pc)) ∨
    (s.pc.toNat < 0xFFF ∧ ∃ op, op = wordOfBytes (s.readByte s.pc.toNat) (s.readByte (s.pc.toNat + 1)) ∧
      ((illegalWord op = true ∧ f = .illegalOpcode op) ∨
       ∃ i, decodeWord op = .ok i ∧ execFault i s = some f))

/-- The model refuses nothing but `JP V0, NNN` in an instance whose JUMP_OFFSET has no meaning: with v0_exact every STEP
executes an instruction or faults (R232; log 2). -/
def Obligations.StepNeverRefuses : Prop :=
  (∀ s : State, s.cfg.jumpOffset = .v0Exact → (∃ t, step s = .next t) ∨ (∃ f, step s = .fault f)) ∧
  (∀ (i : Instr) (s : State) (r : Refusal), exec i s = .refused r →
    r = .jumpOffsetUndefined ∧ ∃ nnn, i = .jpV0 nnn)

/-- A faulting STEP changes nothing, and stepping again raises the same fault, whatever the entropy byte and whatever
the host has done to the keys and the dirty flag (R196, R197; the spec's choice D9, log 6). -/
def Obligations.FaultIsPreciseAndRepeats : Prop :=
  ∀ (s t : State) (rnd rnd' : Byte) (f : Fault) (keys : Vector Bool 16) (d : Bool), hostStep rnd s = (.fault f, t) →
    t = s ∧ hostStep rnd' { s with key := keys, dirty := d } = (.fault f, { s with key := keys, dirty := d })

/-! ### Whole-machine rules -/

/-- R16: sp is changed only by CALL (+1) and RET (-1) among the instructions, and by RESET (to 0) among the host's
operations; a CALL at sp = 16 and a RET at sp = 0 fault. -/
def Obligations.StackPointerChangesOnlyByCallRetReset : Prop :=
  (∀ s : State, s.sp.val ≤ 16) ∧
  (∀ (i : Instr) (s t : State), exec i s = .next t →
    ((∃ nnn, i = .call nnn) ∧ t.sp.val = s.sp.val + 1) ∨ (i = .ret ∧ t.sp.val + 1 = s.sp.val) ∨
    ((∀ nnn, i ≠ .call nnn) ∧ i ≠ .ret ∧ t.sp = s.sp ∧ t.stack = s.stack)) ∧
  (∀ s : State, (hostOp .reset s).2.sp.val = 0) ∧
  (∀ (o : HostOp) (s : State), (∀ b, o ≠ .step b) → o ≠ .reset → (hostOp o s).2.sp = s.sp) ∧
  (∀ (s : State) (nnn : Addr), s.sp.val = 16 → exec (.call nnn) s = .fault (.stackOverflow s.pc)) ∧
  (∀ s : State, s.sp.val = 0 → exec .ret s = .fault (.stackUnderflow s.pc))

/-- The registers each instruction can change: its X (V[0] to V[X] for the block load), and VF for R12's list only;
the flag those write is 0 or 1. -/
def Obligations.RegisterWritersAndFlagWriters : Prop :=
  ∀ (i : Instr) (s t : State), exec i s = .next t →
    (setsVF s.cfg i = true → (t.readV 15).toNat = 0 ∨ (t.readV 15).toNat = 1) ∧
    ∀ q : RegIdx, t.readV q ≠ s.readV q →
      (setsVF s.cfg i = true ∧ q = 15) ∨
      (∃ nn, i = .ldImm q nn ∨ i = .addImm q nn ∨ i = .rnd q nn) ∨
      (∃ y, i = .ldReg q y ∨ i = .orReg q y ∨ i = .andReg q y ∨ i = .xorReg q y ∨ i = .addReg q y ∨ i = .subReg q y ∨
        i = .subnReg q y ∨ i = .shr q y ∨ i = .shl q y) ∨
      i = .ldVxDT q ∨ i = .ldVxK q ∨ (∃ x, q ≤ x ∧ i = .loadRegs x)

/-- Which instructions write memory, the display, I and the timers: FX33 and FX55; CLS and DXYN; ANNN, FX1E and FX29;
FX15; FX18. No instruction writes the parameters or the key latch. -/
def Obligations.WritersOfEachState : Prop :=
  ∀ (i : Instr) (s t : State), exec i s = .next t →
    (t.mem ≠ s.mem → ∃ x, i = .ldB x ∨ i = .storeRegs x) ∧
    (t.fb ≠ s.fb ∨ t.dirty ≠ s.dirty ∨ t.out ≠ s.out → isDisplay i = true) ∧
    (t.index ≠ s.index → (∃ nnn, i = .ldI nnn) ∨ ∃ x, i = .addI x ∨ i = .ldF x) ∧
    (t.dt ≠ s.dt → ∃ x, i = .ldDTVx x) ∧ (t.st ≠ s.st → ∃ x, i = .ldSTVx x) ∧
    t.cfg = s.cfg ∧ t.key = s.key

/-- R21: the key latch is written only by SET_KEY and RESET, never by a STEP, and is read only by SKP, SKNP and
`LD Vx, K`: any other instruction does the same whatever keys are pressed. -/
def Obligations.KeysReadOnlyByKeyInstructions : Prop :=
  (∀ s t : State, step s = .next t → t.key = s.key) ∧
  (∀ (o : HostOp) (s : State), o ≠ .reset → (∀ k b, o ≠ .setKey k b) → (hostOp o s).2.key = s.key) ∧
  (∀ (s : State) (k : Nat), keyAt (hostOp .reset s).2 k = false) ∧
  (∀ (i : Instr) (s : State) (keys : Vector Bool 16),
    (∀ x, i ≠ .skp x ∧ i ≠ .sknp x ∧ i ≠ .ldVxK x) →
    exec i { s with key := keys } = mapNext (fun t => { t with key := keys }) (exec i s))

/-- Only RND reads or consumes entropy (R211, D28): any other instruction does the same whatever bytes the source holds
and leaves them. -/
def Obligations.EntropyReadOnlyByRandom : Prop :=
  ∀ (i : Instr) (s : State) (e : List Byte) (d : Nat), (∀ x nn, i ≠ .rnd x nn) →
    exec i { s with entropy := e, draws := d } = mapNext (fun t => { t with entropy := e, draws := d }) (exec i s)

/-- The dirty bit (R20): set by every successful CLS and DRW, cleared only by CLEAR_DIRTY and RESET, and read by no
instruction. That RESET clears it is the spec's choice D16 (log 3). -/
def Obligations.DirtyFlagRules : Prop :=
  (∀ (s t : State) (i : Instr), s.fetchInstr = .ok i → step s = .next t → t.dirty = (s.dirty || isDisplay i)) ∧
  (∀ s : State, (hostOp .clearDirty s).2 = { s with dirty := false }) ∧
  (∀ s : State, (hostOp .reset s).2.dirty = false) ∧
  (∀ (o : HostOp) (s : State), o ≠ .reset → o ≠ .clearDirty → (∀ b, o ≠ .step b) →
    (hostOp o s).2.dirty = s.dirty) ∧
  (∀ (i : Instr) (s : State) (d : Bool),
    exec i { s with dirty := d } = mapNext (fun t => { t with dirty := d || isDisplay i }) (exec i s))

/-- The invariant holds right after RESET, for every setting of the parameters. -/
def Obligations.InvariantAtReset : Prop := StateInv State.reset ∧ ∀ cfg : Config, StateInv (State.resetWith cfg)

/-- Every STEP keeps the invariant: memory stays in its canonical form, inside its 4096 bytes, and a STEP that reports
`sound_stopped` leaves ST at 0. -/
def Obligations.EveryStepKeepsInvariant : Prop := ∀ s t : State, StateInv s → step s = .next t → StateInv t

/-- Every state a host can reach, by any operations of R203 in any order from any RESET, meets the invariant, has no
byte listed outside memory, and has the parameters its RESET gave it. -/
def Obligations.ReachableStatesMeetInvariant : Prop :=
  (∀ s : State, Reachable s → StateInv s ∧ ∀ a, a > 0xFFF → Memory.lookup a s.mem = none) ∧
  (∀ (ops : List HostOp) (s : State), (hostRun ops s).cfg = s.cfg)

/-- Two memories in canonical form that read alike at every address are equal data. -/
def Obligations.CanonicalMemoriesAreEqual : Prop :=
  ∀ (font : Vector Byte 80) (m m' : Memory), Memory.wf font m → Memory.wf font m' →
    (∀ a ≤ 0xFFF, Memory.read font m a = Memory.read font m' a) → m = m'

/-! ### The host interface -/

/-- The reset values the source states: memory zeroed except the font table, pc = 0x200, sp 0, timers 0, display
cleared, keys released, for every FONT. -/
def Obligations.ResetValuesOfTheSource : Prop :=
  ∀ s t : State, t = (hostOp .reset s).2 →
    t.pc.toNat = 0x200 ∧ t.sp.val = 0 ∧ t.dt = 0 ∧ t.st = 0 ∧ (∀ x y, t.fb.pixel x y = false) ∧
    (∀ k, keyAt t k = false) ∧ (∀ j (h : j < 80), t.readByte j = s.cfg.font[j]) ∧
    (∀ a, 80 ≤ a → t.readByte a = 0) ∧ t.cfg = s.cfg

/-- The reset values the source does not state, 0 by the spec's own choice D16 (the model's log 3): V, I, STACK, dirty.
They are choices: no rule of the source states them. -/
def Obligations.ResetValuesChosen : Prop :=
  ∀ s t : State, t = (hostOp .reset s).2 →
    (∀ q, t.readV q = 0) ∧ t.index = 0 ∧ (∀ k, stackAt t k = 0) ∧ t.dirty = false

/-- R224 LOAD: at most 3584 bytes succeed and make memory zero, the font, and the ROM verbatim at 0x200; more are
TooLarge with no state changed. -/
def Obligations.LoadCopiesRom : Prop :=
  ∀ (rom : List Byte) (s : State),
    (rom.length ≤ 3584 → ∃ t, hostOp (.load rom) s = (.done, t) ∧
      (∀ j (h : j < 80), t.readByte j = s.cfg.font[j]) ∧
      (∀ a, 80 ≤ a → a < 0x200 → t.readByte a = 0) ∧
      (∀ j (h : j < rom.length), t.readByte (0x200 + j) = rom[j]) ∧
      (∀ a, 0x200 + rom.length ≤ a → t.readByte a = 0)) ∧
    (rom.length > 3584 → hostOp (.load rom) s = (.tooLarge, s))

/-- LOAD changes memory only (R225; the spec's choice D20, log 20). -/
def Obligations.LoadChangesMemoryOnly : Prop :=
  ∀ (rom : List Byte) (s : State), (hostOp (.load rom) s).2 = { s with mem := (hostOp (.load rom) s).2.mem }

/-- How a run starts (R222, R226): after RESET with no ROM loaded the first STEP fetches 0000 at 0x200 and raises
IllegalOpcode, for every setting of the parameters; after RESET and LOAD of a ROM whose first two bytes are an
instruction's, the first STEP executes exactly that instruction at 0x200 in the loaded machine. -/
def Obligations.FirstStepAfterResetAndLoad : Prop :=
  (∀ cfg : Config, step (State.resetWith cfg) = .fault (.illegalOpcode 0x0000)) ∧
  ∀ (s : State) (i : Instr) (rest : List Byte), rest.length ≤ 3582 →
    ∃ t, hostRun [.reset, .load (encode i ++ rest)] s = t ∧ t.pc.toNat = 0x200 ∧
      step t = completeStep (exec i t.beginStep)

/-- SET_KEY (R208): KEY[k] becomes the value and nothing else changes; an index of 16 or more is refused under a name
of the model's (log 25). -/
def Obligations.SetKeySetsOneKey : Prop :=
  ∀ (k : Nat) (b : Bool) (s : State),
    (k ≤ 15 → ∃ t, hostOp (.setKey k b) s = (.done, t) ∧ keyAt t k = b ∧ (∀ j, j ≠ k → keyAt t j = keyAt s j) ∧
      t = { s with key := t.key }) ∧
    (k ≥ 16 → hostOp (.setKey k b) s = (.refused (.keyIndexUndefined k), s))

/-- R204, R205, R207: the read ports show the display, the timers and the dirty bit as they stand and change nothing;
CLEAR_DIRTY clears the dirty bit and changes nothing else, and the core only ever sets it; the host has no operation but
STEP and RESET that changes a timer or a pixel. -/
def Obligations.ReadPortsHaveNoSideEffect : Prop :=
  ∀ s : State,
    hostOp .readFb s = (.pixels s.fb, s) ∧ hostOp .readTimers s = (.timers s.dt s.st, s) ∧
    hostOp .readDirty s = (.dirtyBit s.dirty, s) ∧ hostOp .clearDirty s = (.done, { s with dirty := false }) ∧
    (∀ t : State, step s = .next t → s.dirty = true → t.dirty = true) ∧
    ∀ o : HostOp, o ≠ .reset → (∀ b, o ≠ .step b) →
      (hostOp o s).2.dt = s.dt ∧ (hostOp o s).2.st = s.st ∧ (hostOp o s).2.fb = s.fb

/-- Every operation of the host interface (R203), in any state that meets the invariant, keeps it: a STEP with any
entropy byte, whether it succeeds or faults, a LOAD of any ROM, RESET, SET_KEY, CLEAR_DIRTY and the read ports. The form
of memory is the model's (log 7), and so is the host's moves being functions on State (log 26). -/
def Obligations.EveryHostOperationKeepsInvariant : Prop :=
  ∀ (o : HostOp) (s : State), StateInv s → StateInv (hostOp o s).2
end

