-- ==== Sys2Proof/Laws/Decode.lean ====
section
/-! SUPPORT. The fields of a word built by a format (R61, R62), and bytes of a word (R43). -/

namespace Sys2Proof

@[simp] theorem regOfNibble_nibbleOfReg (r : RegIdx) : regOfNibble (nibbleOfReg r) = r := rfl
@[simp] theorem nibbleOfReg_regOfNibble (b : Nibble) : nibbleOfReg (regOfNibble b) = b := rfl

variable (p n : Nibble) (x y : RegIdx) (nn : Byte) (nnn : Addr)

@[simp] theorem wordAddr_p : (wordAddr p nnn).extractLsb' 12 4 = p := BitVec.extractLsb'_append_eq_left
@[simp] theorem wordAddr_nnn : (wordAddr p nnn).extractLsb' 0 12 = nnn := BitVec.extractLsb'_append_eq_right

@[simp] theorem wordRegImm_p : (wordRegImm p x nn).extractLsb' 12 4 = p := BitVec.extractLsb'_append_eq_left
@[simp] theorem wordRegImm_x : (wordRegImm p x nn).extractLsb' 8 4 = nibbleOfReg x := by
  unfold wordRegImm
  rw [BitVec.extractLsb'_append_eq_of_add_le (by omega)]
  exact BitVec.extractLsb'_append_eq_left
@[simp] theorem wordRegImm_nn : (wordRegImm p x nn).extractLsb' 0 8 = nn := by
  unfold wordRegImm
  rw [BitVec.extractLsb'_append_eq_of_add_le (by omega)]
  exact BitVec.extractLsb'_append_eq_right

@[simp] theorem wordRegReg_p : (wordRegReg p x y n).extractLsb' 12 4 = p := BitVec.extractLsb'_append_eq_left
@[simp] theorem wordRegReg_x : (wordRegReg p x y n).extractLsb' 8 4 = nibbleOfReg x := by
  unfold wordRegReg
  rw [BitVec.extractLsb'_append_eq_of_add_le (by omega)]
  exact BitVec.extractLsb'_append_eq_left
@[simp] theorem wordRegReg_y : (wordRegReg p x y n).extractLsb' 4 4 = nibbleOfReg y := by
  unfold wordRegReg
  rw [BitVec.extractLsb'_append_eq_of_add_le (by omega), BitVec.extractLsb'_append_eq_of_add_le (by omega)]
  exact BitVec.extractLsb'_append_eq_left
@[simp] theorem wordRegReg_n : (wordRegReg p x y n).extractLsb' 0 4 = n := by
  unfold wordRegReg
  rw [BitVec.extractLsb'_append_eq_of_add_le (by omega), BitVec.extractLsb'_append_eq_of_add_le (by omega)]
  exact BitVec.extractLsb'_append_eq_right

/-- The two bytes of a word, put together again, are the word (R43). -/
@[simp] theorem wordOfBytes_highByte_lowByte (op : Word) : wordOfBytes (highByte op) (lowByte op) = op := by
  unfold wordOfBytes highByte lowByte
  rw [BitVec.extractLsb'_append_extractLsb'_eq_extractLsb' (by omega)]
  exact BitVec.extractLsb'_eq_self

@[simp] theorem highByte_wordOfBytes (hi lo : Byte) : highByte (wordOfBytes hi lo) = hi :=
  BitVec.extractLsb'_append_eq_left
@[simp] theorem lowByte_wordOfBytes (hi lo : Byte) : lowByte (wordOfBytes hi lo) = lo :=
  BitVec.extractLsb'_append_eq_right

/-- Big-endian as numbers: `MEM[pc] * 256 + MEM[pc+1]` (R43). -/
theorem wordOfBytes_toNat (hi lo : Byte) : (wordOfBytes hi lo).toNat = hi.toNat * 256 + lo.toNat := by
  have := lo.isLt
  have h := BitVec.toNat_append hi lo
  rw [Nat.shiftLeft_eq, show (2 : Nat) ^ 8 = 2 ^ 8 from rfl, Nat.mul_comm,
    ← Nat.two_pow_add_eq_or_of_lt this] at h
  unfold wordOfBytes
  rw [show (hi ++ lo : BitVec (8 + 8)).toNat = _ from h]
  omega

/-- What decoding the first instruction of a byte list does to the bytes of one word. -/
theorem decode_word (op : Word) (rest : List Byte) :
    decode (highByte op :: lowByte op :: rest) =
      match decodeWord op with
      | .ok i => .ok (i, rest)
      | .error e => .error e := by
  cases h : decodeWord op <;> simp [decode, h]

end Sys2Proof
end

