-- ==== Sys2Proof/Laws/State.lean ====
section
/-! SUPPORT. One lemma per field per update of State, true by `rfl`, so that no later proof unfolds a record update. -/

namespace Sys2Proof.Machine

variable (s : State)

/-! ### `writeV` -/

@[simp] theorem State.writeV_v (r : RegIdx) (b : Byte) : (s.writeV r b).v = s.v.set r.val b r.isLt := rfl
@[simp] theorem State.writeV_index (r : RegIdx) (b : Byte) : (s.writeV r b).index = s.index := rfl
@[simp] theorem State.writeV_pc (r : RegIdx) (b : Byte) : (s.writeV r b).pc = s.pc := rfl
@[simp] theorem State.writeV_stack (r : RegIdx) (b : Byte) : (s.writeV r b).stack = s.stack := rfl
@[simp] theorem State.writeV_sp (r : RegIdx) (b : Byte) : (s.writeV r b).sp = s.sp := rfl
@[simp] theorem State.writeV_dt (r : RegIdx) (b : Byte) : (s.writeV r b).dt = s.dt := rfl
@[simp] theorem State.writeV_st (r : RegIdx) (b : Byte) : (s.writeV r b).st = s.st := rfl
@[simp] theorem State.writeV_fb (r : RegIdx) (b : Byte) : (s.writeV r b).fb = s.fb := rfl
@[simp] theorem State.writeV_dirty (r : RegIdx) (b : Byte) : (s.writeV r b).dirty = s.dirty := rfl
@[simp] theorem State.writeV_key (r : RegIdx) (b : Byte) : (s.writeV r b).key = s.key := rfl
@[simp] theorem State.writeV_mem (r : RegIdx) (b : Byte) : (s.writeV r b).mem = s.mem := rfl
@[simp] theorem State.writeV_cfg (r : RegIdx) (b : Byte) : (s.writeV r b).cfg = s.cfg := rfl
@[simp] theorem State.writeV_entropy (r : RegIdx) (b : Byte) : (s.writeV r b).entropy = s.entropy := rfl
@[simp] theorem State.writeV_draws (r : RegIdx) (b : Byte) : (s.writeV r b).draws = s.draws := rfl
@[simp] theorem State.writeV_out (r : RegIdx) (b : Byte) : (s.writeV r b).out = s.out := rfl
@[simp] theorem State.readByte_writeV (r : RegIdx) (b : Byte) (i : Nat) : (s.writeV r b).readByte i = s.readByte i := rfl
@[simp] theorem State.lowestKey_writeV (r : RegIdx) (b : Byte) : (s.writeV r b).lowestKey = s.lowestKey := rfl

/-! ### `writeResultAndFlag` -/

@[simp] theorem State.writeResultAndFlag_v (x : RegIdx) (b : Byte) (c : Bool) : (s.writeResultAndFlag x b c).v = (s.v.set x.val b x.isLt).set 15 (flagByte c) := rfl
@[simp] theorem State.writeResultAndFlag_index (x : RegIdx) (b : Byte) (c : Bool) : (s.writeResultAndFlag x b c).index = s.index := rfl
@[simp] theorem State.writeResultAndFlag_pc (x : RegIdx) (b : Byte) (c : Bool) : (s.writeResultAndFlag x b c).pc = s.pc := rfl
@[simp] theorem State.writeResultAndFlag_stack (x : RegIdx) (b : Byte) (c : Bool) : (s.writeResultAndFlag x b c).stack = s.stack := rfl
@[simp] theorem State.writeResultAndFlag_sp (x : RegIdx) (b : Byte) (c : Bool) : (s.writeResultAndFlag x b c).sp = s.sp := rfl
@[simp] theorem State.writeResultAndFlag_dt (x : RegIdx) (b : Byte) (c : Bool) : (s.writeResultAndFlag x b c).dt = s.dt := rfl
@[simp] theorem State.writeResultAndFlag_st (x : RegIdx) (b : Byte) (c : Bool) : (s.writeResultAndFlag x b c).st = s.st := rfl
@[simp] theorem State.writeResultAndFlag_fb (x : RegIdx) (b : Byte) (c : Bool) : (s.writeResultAndFlag x b c).fb = s.fb := rfl
@[simp] theorem State.writeResultAndFlag_dirty (x : RegIdx) (b : Byte) (c : Bool) : (s.writeResultAndFlag x b c).dirty = s.dirty := rfl
@[simp] theorem State.writeResultAndFlag_key (x : RegIdx) (b : Byte) (c : Bool) : (s.writeResultAndFlag x b c).key = s.key := rfl
@[simp] theorem State.writeResultAndFlag_mem (x : RegIdx) (b : Byte) (c : Bool) : (s.writeResultAndFlag x b c).mem = s.mem := rfl
@[simp] theorem State.writeResultAndFlag_cfg (x : RegIdx) (b : Byte) (c : Bool) : (s.writeResultAndFlag x b c).cfg = s.cfg := rfl
@[simp] theorem State.writeResultAndFlag_entropy (x : RegIdx) (b : Byte) (c : Bool) : (s.writeResultAndFlag x b c).entropy = s.entropy := rfl
@[simp] theorem State.writeResultAndFlag_draws (x : RegIdx) (b : Byte) (c : Bool) : (s.writeResultAndFlag x b c).draws = s.draws := rfl
@[simp] theorem State.writeResultAndFlag_out (x : RegIdx) (b : Byte) (c : Bool) : (s.writeResultAndFlag x b c).out = s.out := rfl
@[simp] theorem State.readByte_writeResultAndFlag (x : RegIdx) (b : Byte) (c : Bool) (i : Nat) : (s.writeResultAndFlag x b c).readByte i = s.readByte i := rfl
@[simp] theorem State.lowestKey_writeResultAndFlag (x : RegIdx) (b : Byte) (c : Bool) : (s.writeResultAndFlag x b c).lowestKey = s.lowestKey := rfl

/-! ### `loadRegsUpTo` -/

@[simp] theorem State.loadRegsUpTo_index (x : RegIdx) : (s.loadRegsUpTo x).index = s.index := rfl
@[simp] theorem State.loadRegsUpTo_pc (x : RegIdx) : (s.loadRegsUpTo x).pc = s.pc := rfl
@[simp] theorem State.loadRegsUpTo_stack (x : RegIdx) : (s.loadRegsUpTo x).stack = s.stack := rfl
@[simp] theorem State.loadRegsUpTo_sp (x : RegIdx) : (s.loadRegsUpTo x).sp = s.sp := rfl
@[simp] theorem State.loadRegsUpTo_dt (x : RegIdx) : (s.loadRegsUpTo x).dt = s.dt := rfl
@[simp] theorem State.loadRegsUpTo_st (x : RegIdx) : (s.loadRegsUpTo x).st = s.st := rfl
@[simp] theorem State.loadRegsUpTo_fb (x : RegIdx) : (s.loadRegsUpTo x).fb = s.fb := rfl
@[simp] theorem State.loadRegsUpTo_dirty (x : RegIdx) : (s.loadRegsUpTo x).dirty = s.dirty := rfl
@[simp] theorem State.loadRegsUpTo_key (x : RegIdx) : (s.loadRegsUpTo x).key = s.key := rfl
@[simp] theorem State.loadRegsUpTo_mem (x : RegIdx) : (s.loadRegsUpTo x).mem = s.mem := rfl
@[simp] theorem State.loadRegsUpTo_cfg (x : RegIdx) : (s.loadRegsUpTo x).cfg = s.cfg := rfl
@[simp] theorem State.loadRegsUpTo_entropy (x : RegIdx) : (s.loadRegsUpTo x).entropy = s.entropy := rfl
@[simp] theorem State.loadRegsUpTo_draws (x : RegIdx) : (s.loadRegsUpTo x).draws = s.draws := rfl
@[simp] theorem State.loadRegsUpTo_out (x : RegIdx) : (s.loadRegsUpTo x).out = s.out := rfl
@[simp] theorem State.readByte_loadRegsUpTo (x : RegIdx) (i : Nat) : (s.loadRegsUpTo x).readByte i = s.readByte i := rfl
@[simp] theorem State.lowestKey_loadRegsUpTo (x : RegIdx) : (s.loadRegsUpTo x).lowestKey = s.lowestKey := rfl

/-! ### `writeIndex` -/

@[simp] theorem State.writeIndex_v (w : Word) : (s.writeIndex w).v = s.v := rfl
@[simp] theorem State.writeIndex_index (w : Word) : (s.writeIndex w).index = w := rfl
@[simp] theorem State.writeIndex_pc (w : Word) : (s.writeIndex w).pc = s.pc := rfl
@[simp] theorem State.writeIndex_stack (w : Word) : (s.writeIndex w).stack = s.stack := rfl
@[simp] theorem State.writeIndex_sp (w : Word) : (s.writeIndex w).sp = s.sp := rfl
@[simp] theorem State.writeIndex_dt (w : Word) : (s.writeIndex w).dt = s.dt := rfl
@[simp] theorem State.writeIndex_st (w : Word) : (s.writeIndex w).st = s.st := rfl
@[simp] theorem State.writeIndex_fb (w : Word) : (s.writeIndex w).fb = s.fb := rfl
@[simp] theorem State.writeIndex_dirty (w : Word) : (s.writeIndex w).dirty = s.dirty := rfl
@[simp] theorem State.writeIndex_key (w : Word) : (s.writeIndex w).key = s.key := rfl
@[simp] theorem State.writeIndex_mem (w : Word) : (s.writeIndex w).mem = s.mem := rfl
@[simp] theorem State.writeIndex_cfg (w : Word) : (s.writeIndex w).cfg = s.cfg := rfl
@[simp] theorem State.writeIndex_entropy (w : Word) : (s.writeIndex w).entropy = s.entropy := rfl
@[simp] theorem State.writeIndex_draws (w : Word) : (s.writeIndex w).draws = s.draws := rfl
@[simp] theorem State.writeIndex_out (w : Word) : (s.writeIndex w).out = s.out := rfl
@[simp] theorem State.readV_writeIndex (w : Word) (q : RegIdx) : (s.writeIndex w).readV q = s.readV q := rfl
@[simp] theorem State.readByte_writeIndex (w : Word) (i : Nat) : (s.writeIndex w).readByte i = s.readByte i := rfl
@[simp] theorem State.lowestKey_writeIndex (w : Word) : (s.writeIndex w).lowestKey = s.lowestKey := rfl

/-! ### `setPc` -/

@[simp] theorem State.setPc_v (w : Word) : (s.setPc w).v = s.v := rfl
@[simp] theorem State.setPc_index (w : Word) : (s.setPc w).index = s.index := rfl
@[simp] theorem State.setPc_pc (w : Word) : (s.setPc w).pc = w := rfl
@[simp] theorem State.setPc_stack (w : Word) : (s.setPc w).stack = s.stack := rfl
@[simp] theorem State.setPc_sp (w : Word) : (s.setPc w).sp = s.sp := rfl
@[simp] theorem State.setPc_dt (w : Word) : (s.setPc w).dt = s.dt := rfl
@[simp] theorem State.setPc_st (w : Word) : (s.setPc w).st = s.st := rfl
@[simp] theorem State.setPc_fb (w : Word) : (s.setPc w).fb = s.fb := rfl
@[simp] theorem State.setPc_dirty (w : Word) : (s.setPc w).dirty = s.dirty := rfl
@[simp] theorem State.setPc_key (w : Word) : (s.setPc w).key = s.key := rfl
@[simp] theorem State.setPc_mem (w : Word) : (s.setPc w).mem = s.mem := rfl
@[simp] theorem State.setPc_cfg (w : Word) : (s.setPc w).cfg = s.cfg := rfl
@[simp] theorem State.setPc_entropy (w : Word) : (s.setPc w).entropy = s.entropy := rfl
@[simp] theorem State.setPc_draws (w : Word) : (s.setPc w).draws = s.draws := rfl
@[simp] theorem State.setPc_out (w : Word) : (s.setPc w).out = s.out := rfl
@[simp] theorem State.readV_setPc (w : Word) (q : RegIdx) : (s.setPc w).readV q = s.readV q := rfl
@[simp] theorem State.readByte_setPc (w : Word) (i : Nat) : (s.setPc w).readByte i = s.readByte i := rfl
@[simp] theorem State.lowestKey_setPc (w : Word) : (s.setPc w).lowestKey = s.lowestKey := rfl

/-! ### `advance` -/

@[simp] theorem State.advance_v : (s.advance).v = s.v := rfl
@[simp] theorem State.advance_index : (s.advance).index = s.index := rfl
@[simp] theorem State.advance_pc : (s.advance).pc = s.pc + 2 := rfl
@[simp] theorem State.advance_stack : (s.advance).stack = s.stack := rfl
@[simp] theorem State.advance_sp : (s.advance).sp = s.sp := rfl
@[simp] theorem State.advance_dt : (s.advance).dt = s.dt := rfl
@[simp] theorem State.advance_st : (s.advance).st = s.st := rfl
@[simp] theorem State.advance_fb : (s.advance).fb = s.fb := rfl
@[simp] theorem State.advance_dirty : (s.advance).dirty = s.dirty := rfl
@[simp] theorem State.advance_key : (s.advance).key = s.key := rfl
@[simp] theorem State.advance_mem : (s.advance).mem = s.mem := rfl
@[simp] theorem State.advance_cfg : (s.advance).cfg = s.cfg := rfl
@[simp] theorem State.advance_entropy : (s.advance).entropy = s.entropy := rfl
@[simp] theorem State.advance_draws : (s.advance).draws = s.draws := rfl
@[simp] theorem State.advance_out : (s.advance).out = s.out := rfl
@[simp] theorem State.readV_advance (q : RegIdx) : (s.advance).readV q = s.readV q := rfl
@[simp] theorem State.readByte_advance (i : Nat) : (s.advance).readByte i = s.readByte i := rfl
@[simp] theorem State.lowestKey_advance : (s.advance).lowestKey = s.lowestKey := rfl

/-! ### `skipIf` -/

@[simp] theorem State.skipIf_v (c : Bool) : (s.skipIf c).v = s.v := rfl
@[simp] theorem State.skipIf_index (c : Bool) : (s.skipIf c).index = s.index := rfl
@[simp] theorem State.skipIf_pc (c : Bool) : (s.skipIf c).pc = s.pc + (if c then 4 else 2) := rfl
@[simp] theorem State.skipIf_stack (c : Bool) : (s.skipIf c).stack = s.stack := rfl
@[simp] theorem State.skipIf_sp (c : Bool) : (s.skipIf c).sp = s.sp := rfl
@[simp] theorem State.skipIf_dt (c : Bool) : (s.skipIf c).dt = s.dt := rfl
@[simp] theorem State.skipIf_st (c : Bool) : (s.skipIf c).st = s.st := rfl
@[simp] theorem State.skipIf_fb (c : Bool) : (s.skipIf c).fb = s.fb := rfl
@[simp] theorem State.skipIf_dirty (c : Bool) : (s.skipIf c).dirty = s.dirty := rfl
@[simp] theorem State.skipIf_key (c : Bool) : (s.skipIf c).key = s.key := rfl
@[simp] theorem State.skipIf_mem (c : Bool) : (s.skipIf c).mem = s.mem := rfl
@[simp] theorem State.skipIf_cfg (c : Bool) : (s.skipIf c).cfg = s.cfg := rfl
@[simp] theorem State.skipIf_entropy (c : Bool) : (s.skipIf c).entropy = s.entropy := rfl
@[simp] theorem State.skipIf_draws (c : Bool) : (s.skipIf c).draws = s.draws := rfl
@[simp] theorem State.skipIf_out (c : Bool) : (s.skipIf c).out = s.out := rfl
@[simp] theorem State.readV_skipIf (c : Bool) (q : RegIdx) : (s.skipIf c).readV q = s.readV q := rfl
@[simp] theorem State.readByte_skipIf (c : Bool) (i : Nat) : (s.skipIf c).readByte i = s.readByte i := rfl
@[simp] theorem State.lowestKey_skipIf (c : Bool) : (s.skipIf c).lowestKey = s.lowestKey := rfl

/-! ### `writeByte` -/

@[simp] theorem State.writeByte_v (a : Nat) (b : Byte) : (s.writeByte a b).v = s.v := rfl
@[simp] theorem State.writeByte_index (a : Nat) (b : Byte) : (s.writeByte a b).index = s.index := rfl
@[simp] theorem State.writeByte_pc (a : Nat) (b : Byte) : (s.writeByte a b).pc = s.pc := rfl
@[simp] theorem State.writeByte_stack (a : Nat) (b : Byte) : (s.writeByte a b).stack = s.stack := rfl
@[simp] theorem State.writeByte_sp (a : Nat) (b : Byte) : (s.writeByte a b).sp = s.sp := rfl
@[simp] theorem State.writeByte_dt (a : Nat) (b : Byte) : (s.writeByte a b).dt = s.dt := rfl
@[simp] theorem State.writeByte_st (a : Nat) (b : Byte) : (s.writeByte a b).st = s.st := rfl
@[simp] theorem State.writeByte_fb (a : Nat) (b : Byte) : (s.writeByte a b).fb = s.fb := rfl
@[simp] theorem State.writeByte_dirty (a : Nat) (b : Byte) : (s.writeByte a b).dirty = s.dirty := rfl
@[simp] theorem State.writeByte_key (a : Nat) (b : Byte) : (s.writeByte a b).key = s.key := rfl
@[simp] theorem State.writeByte_mem (a : Nat) (b : Byte) : (s.writeByte a b).mem = Memory.write s.cfg.font s.mem a b := rfl
@[simp] theorem State.writeByte_cfg (a : Nat) (b : Byte) : (s.writeByte a b).cfg = s.cfg := rfl
@[simp] theorem State.writeByte_entropy (a : Nat) (b : Byte) : (s.writeByte a b).entropy = s.entropy := rfl
@[simp] theorem State.writeByte_draws (a : Nat) (b : Byte) : (s.writeByte a b).draws = s.draws := rfl
@[simp] theorem State.writeByte_out (a : Nat) (b : Byte) : (s.writeByte a b).out = s.out := rfl
@[simp] theorem State.readV_writeByte (a : Nat) (b : Byte) (q : RegIdx) : (s.writeByte a b).readV q = s.readV q := rfl
@[simp] theorem State.lowestKey_writeByte (a : Nat) (b : Byte) : (s.writeByte a b).lowestKey = s.lowestKey := rfl

/-! ### `markDirty` -/

@[simp] theorem State.markDirty_v : (s.markDirty).v = s.v := rfl
@[simp] theorem State.markDirty_index : (s.markDirty).index = s.index := rfl
@[simp] theorem State.markDirty_pc : (s.markDirty).pc = s.pc := rfl
@[simp] theorem State.markDirty_stack : (s.markDirty).stack = s.stack := rfl
@[simp] theorem State.markDirty_sp : (s.markDirty).sp = s.sp := rfl
@[simp] theorem State.markDirty_dt : (s.markDirty).dt = s.dt := rfl
@[simp] theorem State.markDirty_st : (s.markDirty).st = s.st := rfl
@[simp] theorem State.markDirty_fb : (s.markDirty).fb = s.fb := rfl
@[simp] theorem State.markDirty_dirty : (s.markDirty).dirty = true := rfl
@[simp] theorem State.markDirty_key : (s.markDirty).key = s.key := rfl
@[simp] theorem State.markDirty_mem : (s.markDirty).mem = s.mem := rfl
@[simp] theorem State.markDirty_cfg : (s.markDirty).cfg = s.cfg := rfl
@[simp] theorem State.markDirty_entropy : (s.markDirty).entropy = s.entropy := rfl
@[simp] theorem State.markDirty_draws : (s.markDirty).draws = s.draws := rfl
@[simp] theorem State.markDirty_out : (s.markDirty).out = ⟨true, s.out.soundStopped⟩ := rfl
@[simp] theorem State.readV_markDirty (q : RegIdx) : (s.markDirty).readV q = s.readV q := rfl
@[simp] theorem State.readByte_markDirty (i : Nat) : (s.markDirty).readByte i = s.readByte i := rfl
@[simp] theorem State.lowestKey_markDirty : (s.markDirty).lowestKey = s.lowestKey := rfl

/-! ### `consumeEntropy` -/

@[simp] theorem State.consumeEntropy_v : (s.consumeEntropy).v = s.v := rfl
@[simp] theorem State.consumeEntropy_index : (s.consumeEntropy).index = s.index := rfl
@[simp] theorem State.consumeEntropy_pc : (s.consumeEntropy).pc = s.pc := rfl
@[simp] theorem State.consumeEntropy_stack : (s.consumeEntropy).stack = s.stack := rfl
@[simp] theorem State.consumeEntropy_sp : (s.consumeEntropy).sp = s.sp := rfl
@[simp] theorem State.consumeEntropy_dt : (s.consumeEntropy).dt = s.dt := rfl
@[simp] theorem State.consumeEntropy_st : (s.consumeEntropy).st = s.st := rfl
@[simp] theorem State.consumeEntropy_fb : (s.consumeEntropy).fb = s.fb := rfl
@[simp] theorem State.consumeEntropy_dirty : (s.consumeEntropy).dirty = s.dirty := rfl
@[simp] theorem State.consumeEntropy_key : (s.consumeEntropy).key = s.key := rfl
@[simp] theorem State.consumeEntropy_mem : (s.consumeEntropy).mem = s.mem := rfl
@[simp] theorem State.consumeEntropy_cfg : (s.consumeEntropy).cfg = s.cfg := rfl
@[simp] theorem State.consumeEntropy_entropy : (s.consumeEntropy).entropy = s.entropy.tail := rfl
@[simp] theorem State.consumeEntropy_draws : (s.consumeEntropy).draws = s.draws + 1 := rfl
@[simp] theorem State.consumeEntropy_out : (s.consumeEntropy).out = s.out := rfl
@[simp] theorem State.readV_consumeEntropy (q : RegIdx) : (s.consumeEntropy).readV q = s.readV q := rfl
@[simp] theorem State.readByte_consumeEntropy (i : Nat) : (s.consumeEntropy).readByte i = s.readByte i := rfl
@[simp] theorem State.lowestKey_consumeEntropy : (s.consumeEntropy).lowestKey = s.lowestKey := rfl

/-! ### `beginStep` -/

@[simp] theorem State.beginStep_v : (s.beginStep).v = s.v := rfl
@[simp] theorem State.beginStep_index : (s.beginStep).index = s.index := rfl
@[simp] theorem State.beginStep_pc : (s.beginStep).pc = s.pc := rfl
@[simp] theorem State.beginStep_stack : (s.beginStep).stack = s.stack := rfl
@[simp] theorem State.beginStep_sp : (s.beginStep).sp = s.sp := rfl
@[simp] theorem State.beginStep_dt : (s.beginStep).dt = s.dt := rfl
@[simp] theorem State.beginStep_st : (s.beginStep).st = s.st := rfl
@[simp] theorem State.beginStep_fb : (s.beginStep).fb = s.fb := rfl
@[simp] theorem State.beginStep_dirty : (s.beginStep).dirty = s.dirty := rfl
@[simp] theorem State.beginStep_key : (s.beginStep).key = s.key := rfl
@[simp] theorem State.beginStep_mem : (s.beginStep).mem = s.mem := rfl
@[simp] theorem State.beginStep_cfg : (s.beginStep).cfg = s.cfg := rfl
@[simp] theorem State.beginStep_entropy : (s.beginStep).entropy = s.entropy := rfl
@[simp] theorem State.beginStep_draws : (s.beginStep).draws = s.draws := rfl
@[simp] theorem State.beginStep_out : (s.beginStep).out = ⟨false, false⟩ := rfl
@[simp] theorem State.readV_beginStep (q : RegIdx) : (s.beginStep).readV q = s.readV q := rfl
@[simp] theorem State.readByte_beginStep (i : Nat) : (s.beginStep).readByte i = s.readByte i := rfl
@[simp] theorem State.lowestKey_beginStep : (s.beginStep).lowestKey = s.lowestKey := rfl

/-! ### `tick` -/

@[simp] theorem State.tick_v : (s.tick).v = s.v := rfl
@[simp] theorem State.tick_index : (s.tick).index = s.index := rfl
@[simp] theorem State.tick_pc : (s.tick).pc = s.pc := rfl
@[simp] theorem State.tick_stack : (s.tick).stack = s.stack := rfl
@[simp] theorem State.tick_sp : (s.tick).sp = s.sp := rfl
@[simp] theorem State.tick_dt : (s.tick).dt = tickDown s.dt := rfl
@[simp] theorem State.tick_st : (s.tick).st = tickDown s.st := rfl
@[simp] theorem State.tick_fb : (s.tick).fb = s.fb := rfl
@[simp] theorem State.tick_dirty : (s.tick).dirty = s.dirty := rfl
@[simp] theorem State.tick_key : (s.tick).key = s.key := rfl
@[simp] theorem State.tick_mem : (s.tick).mem = s.mem := rfl
@[simp] theorem State.tick_cfg : (s.tick).cfg = s.cfg := rfl
@[simp] theorem State.tick_entropy : (s.tick).entropy = s.entropy := rfl
@[simp] theorem State.tick_draws : (s.tick).draws = s.draws := rfl
@[simp] theorem State.tick_out : (s.tick).out = ⟨s.out.displayDirty, s.st == 1⟩ := rfl
@[simp] theorem State.readV_tick (q : RegIdx) : (s.tick).readV q = s.readV q := rfl
@[simp] theorem State.readByte_tick (i : Nat) : (s.tick).readByte i = s.readByte i := rfl
@[simp] theorem State.lowestKey_tick : (s.tick).lowestKey = s.lowestKey := rfl

end Sys2Proof.Machine
end

