-- ==== Sys2Proof/Laws/Memory.lean ====
section
/-! SUPPORT. The laws of memory: what a byte reads as after a write, and that every memory operation keeps the
canonical form. -/

namespace Sys2Proof.Machine

variable {font : Vector Byte 80} {m : Memory} {a a' : Nat} {b : Byte}

/-! ### Reading after writing, in every memory -/

theorem Memory.lookup_erase (m : List Host.Cell) (a a' : Nat) :
    Memory.lookup a' (Memory.erase a m) = if a' = a then none else Memory.lookup a' m := by
  induction m with
  | nil => simp [Memory.erase, Memory.lookup]
  | cons c m ih =>
    simp only [Memory.erase]
    split
    · rename_i h
      rw [ih]
      split
      · rfl
      · simp only [Memory.lookup]
        rw [if_neg (by omega)]
    · simp only [Memory.lookup]
      split
      · rw [if_neg (by omega)]
      · exact ih

theorem Memory.lookup_insert (c : Host.Cell) (m : List Host.Cell) (hc : Memory.lookup c.1 m = none) (a : Nat) :
    Memory.lookup a (Memory.insert c m) = if a = c.1 then some c.2 else Memory.lookup a m := by
  induction m with
  | nil => simp [Memory.insert, Memory.lookup, eq_comm]
  | cons d m ih =>
    simp only [Memory.lookup] at hc
    split at hc
    · cases hc
    · rename_i hd
      simp only [Memory.insert]
      split
      · simp [Memory.lookup, eq_comm]
      · simp only [Memory.lookup, ih hc]
        split <;> split <;> first | rfl | omega

theorem Memory.read_write (font : Vector Byte 80) (m : Memory) (a a' : Nat) (b : Byte) :
    Memory.read font (Memory.write font m a b) a' = if a' = a then b else Memory.read font m a' := by
  unfold Memory.write Memory.read
  split
  · rename_i hb
    rw [Memory.lookup_erase]
    split
    · rename_i h; simp [h, hb]
    · rfl
  · rw [Memory.lookup_insert _ _ (by simp [Memory.lookup_erase]), Memory.lookup_erase]
    split
    · rfl
    · rfl

theorem State.readByte_writeByte (s : State) (a a' : Nat) (b : Byte) :
    (s.writeByte a b).readByte a' = if a' = a then b else s.readByte a' :=
  Memory.read_write _ _ _ _ _

@[simp] theorem State.readByte_writeByte_same (s : State) (a : Nat) (b : Byte) : (s.writeByte a b).readByte a = b := by
  simp [State.readByte_writeByte]

/-! ### A list of bytes written at ascending addresses changes memory only -/

theorem State.writeBytes_eq (s : State) (a : Nat) (bs : List Byte) :
    s.writeBytes a bs = { s with mem := (s.writeBytes a bs).mem } := by
  induction bs generalizing s a with
  | nil => rfl
  | cons b bs ih =>
    simp only [State.writeBytes]
    rw [ih (s.writeByte a b) (a + 1)]
    rfl

@[simp] theorem State.writeBytes_v (s : State) (a : Nat) (bs : List Byte) : (s.writeBytes a bs).v = s.v := by
  rw [State.writeBytes_eq]
@[simp] theorem State.writeBytes_index (s : State) (a : Nat) (bs : List Byte) :
    (s.writeBytes a bs).index = s.index := by rw [State.writeBytes_eq]
@[simp] theorem State.writeBytes_pc (s : State) (a : Nat) (bs : List Byte) : (s.writeBytes a bs).pc = s.pc := by
  rw [State.writeBytes_eq]
@[simp] theorem State.writeBytes_stack (s : State) (a : Nat) (bs : List Byte) :
    (s.writeBytes a bs).stack = s.stack := by rw [State.writeBytes_eq]
@[simp] theorem State.writeBytes_sp (s : State) (a : Nat) (bs : List Byte) : (s.writeBytes a bs).sp = s.sp := by
  rw [State.writeBytes_eq]
@[simp] theorem State.writeBytes_dt (s : State) (a : Nat) (bs : List Byte) : (s.writeBytes a bs).dt = s.dt := by
  rw [State.writeBytes_eq]
@[simp] theorem State.writeBytes_st (s : State) (a : Nat) (bs : List Byte) : (s.writeBytes a bs).st = s.st := by
  rw [State.writeBytes_eq]
@[simp] theorem State.writeBytes_fb (s : State) (a : Nat) (bs : List Byte) : (s.writeBytes a bs).fb = s.fb := by
  rw [State.writeBytes_eq]
@[simp] theorem State.writeBytes_dirty (s : State) (a : Nat) (bs : List Byte) :
    (s.writeBytes a bs).dirty = s.dirty := by rw [State.writeBytes_eq]
@[simp] theorem State.writeBytes_key (s : State) (a : Nat) (bs : List Byte) : (s.writeBytes a bs).key = s.key := by
  rw [State.writeBytes_eq]
@[simp] theorem State.writeBytes_cfg (s : State) (a : Nat) (bs : List Byte) : (s.writeBytes a bs).cfg = s.cfg := by
  rw [State.writeBytes_eq]
@[simp] theorem State.writeBytes_entropy (s : State) (a : Nat) (bs : List Byte) :
    (s.writeBytes a bs).entropy = s.entropy := by rw [State.writeBytes_eq]
@[simp] theorem State.writeBytes_draws (s : State) (a : Nat) (bs : List Byte) :
    (s.writeBytes a bs).draws = s.draws := by rw [State.writeBytes_eq]
@[simp] theorem State.writeBytes_out (s : State) (a : Nat) (bs : List Byte) : (s.writeBytes a bs).out = s.out := by
  rw [State.writeBytes_eq]
@[simp] theorem State.readV_writeBytes (s : State) (a : Nat) (bs : List Byte) (q : RegIdx) :
    (s.writeBytes a bs).readV q = s.readV q := by rw [State.writeBytes_eq]; rfl

/-- Byte `j` of the list is read at `a + j`, and every other address reads as before. -/
theorem State.readByte_writeBytes (s : State) (a a' : Nat) (bs : List Byte) :
    (s.writeBytes a bs).readByte a' =
      if h : a ≤ a' ∧ a' - a < bs.length then bs[a' - a]'h.2 else s.readByte a' := by
  induction bs generalizing s a with
  | nil => simp [State.writeBytes]
  | cons b bs ih =>
    simp only [State.writeBytes, ih, State.readByte_writeByte, List.length_cons]
    by_cases h1 : a + 1 ≤ a' ∧ a' - (a + 1) < bs.length
    · have h2 : a ≤ a' ∧ a' - a < bs.length + 1 := by omega
      rw [dif_pos h1, dif_pos h2]
      have : a' - a = (a' - (a + 1)) + 1 := by omega
      simp [this]
    · rw [dif_neg h1]
      by_cases h3 : a' = a
      · subst h3
        simp
      · rw [if_neg h3, dif_neg (by omega)]

theorem State.readByte_writeBytes_outside (s : State) {a a' : Nat} (bs : List Byte)
    (h : a' < a ∨ a + bs.length ≤ a') : (s.writeBytes a bs).readByte a' = s.readByte a' := by
  rw [State.readByte_writeBytes, dif_neg (by omega)]

theorem State.length_readBytes (s : State) (a n : Nat) : (s.readBytes a n).length = n := by
  induction n generalizing a with
  | zero => rfl
  | succ n ih => simp [State.readBytes, ih]

theorem State.getElem_readBytes (s : State) (a n k : Nat) (h : k < (s.readBytes a n).length) :
    (s.readBytes a n)[k] = s.readByte (a + k) := by
  induction n generalizing a k with
  | zero => simp [State.readBytes] at h
  | succ n ih =>
    cases k with
    | zero => simp [State.readBytes]
    | succ k =>
      simp only [State.readBytes, List.getElem_cons_succ]
      rw [ih]
      congr 1
      omega

/-! ### The canonical form -/

theorem Memory.mem_erase {c : Host.Cell} {m : List Host.Cell} {a : Nat} :
    c ∈ Memory.erase a m ↔ c ∈ m ∧ c.1 ≠ a := by
  induction m with
  | nil => simp [Memory.erase]
  | cons d m ih =>
    simp only [Memory.erase]
    split
    · rename_i h
      rw [ih, List.mem_cons]
      constructor
      · exact fun ⟨h1, h2⟩ => ⟨.inr h1, h2⟩
      · rintro ⟨rfl | h1, h2⟩
        · exact absurd h h2
        · exact ⟨h1, h2⟩
    · rename_i h
      rw [List.mem_cons, ih, List.mem_cons]
      constructor
      · rintro (rfl | ⟨h1, h2⟩)
        · exact ⟨.inl rfl, h⟩
        · exact ⟨.inr h1, h2⟩
      · rintro ⟨rfl | h1, h2⟩
        · exact .inl rfl
        · exact .inr ⟨h1, h2⟩

theorem Memory.mem_insert {c d : Host.Cell} {m : List Host.Cell} :
    d ∈ Memory.insert c m ↔ d = c ∨ d ∈ m := by
  induction m with
  | nil => simp [Memory.insert]
  | cons e m ih =>
    simp only [Memory.insert]
    split
    · simp
    · simp only [List.mem_cons, ih]
      tauto

theorem Memory.sorted_erase (h : m.Pairwise (fun c d => c.1 < d.1)) (a : Nat) :
    (Memory.erase a m).Pairwise (fun c d => c.1 < d.1) := by
  induction m with
  | nil => simp [Memory.erase]
  | cons c m ih =>
    rw [List.pairwise_cons] at h
    simp only [Memory.erase]
    split
    · exact ih h.2
    · rw [List.pairwise_cons]
      exact ⟨fun d hd => h.1 d (Memory.mem_erase.1 hd).1, ih h.2⟩

theorem Memory.sorted_insert (c : Host.Cell) (h : m.Pairwise (fun c d => c.1 < d.1)) (hc : ∀ d ∈ m, d.1 ≠ c.1) :
    (Memory.insert c m).Pairwise (fun c d => c.1 < d.1) := by
  induction m with
  | nil => simp [Memory.insert]
  | cons d m ih =>
    rw [List.pairwise_cons] at h
    have hd := hc d (List.mem_cons_self ..)
    simp only [Memory.insert]
    split
    · rename_i hlt
      rw [List.pairwise_cons, List.pairwise_cons]
      refine ⟨?_, h⟩
      intro e he
      rcases List.mem_cons.1 he with rfl | he
      · exact hlt
      · exact lt_trans hlt (h.1 e he)
    · rename_i hge
      rw [List.pairwise_cons]
      refine ⟨?_, ih h.2 fun e he => hc e (List.mem_cons_of_mem _ he)⟩
      intro e he
      rcases Memory.mem_insert.1 he with rfl | he
      · omega
      · exact h.1 e he

theorem Memory.wf_nil (font : Vector Byte 80) : Memory.wf font [] := by simp [Memory.wf]

/-- A write at an address of memory keeps the canonical form. -/
theorem Memory.wf_write (h : Memory.wf font m) (ha : a ≤ 0xFFF) (b : Byte) : Memory.wf font (Memory.write font m a b) := by
  have herase : ∀ c ∈ Memory.erase a m, c.1 ≤ 0xFFF ∧ c.2 ≠ Memory.background font c.1 :=
    fun c hc => h.2 c (Memory.mem_erase.1 hc).1
  unfold Memory.write
  split
  · exact ⟨Memory.sorted_erase h.1 a, herase⟩
  · rename_i hb
    refine ⟨Memory.sorted_insert _ (Memory.sorted_erase h.1 a) fun d hd => (Memory.mem_erase.1 hd).2, ?_⟩
    intro c hc
    rcases Memory.mem_insert.1 hc with rfl | hc
    · exact ⟨ha, hb⟩
    · exact herase c hc

/-- Writes of a list of bytes inside memory keep the canonical form. -/
theorem Memory.wf_writeBytes (s : State) (h : Memory.wf s.cfg.font s.mem) (a : Nat) (bs : List Byte)
    (hr : a + bs.length ≤ 0x1000) : Memory.wf s.cfg.font (s.writeBytes a bs).mem := by
  induction bs generalizing s a with
  | nil => exact h
  | cons b bs ih =>
    simp only [List.length_cons] at hr
    exact ih (s.writeByte a b) (Memory.wf_write h (by omega) b) (a + 1) (by omega)

theorem Memory.mem_ofBytes {c : Host.Cell} {bs : List Byte} (h : c ∈ Memory.ofBytes font a bs) :
    a ≤ c.1 ∧ c.1 < a + bs.length ∧ c.2 ≠ Memory.background font c.1 := by
  induction bs generalizing a with
  | nil => simp [Memory.ofBytes] at h
  | cons b bs ih =>
    simp only [Memory.ofBytes] at h
    simp only [List.length_cons]
    split at h
    · have := ih h
      exact ⟨by omega, by omega, this.2.2⟩
    · rename_i hb
      rcases List.mem_cons.1 h with rfl | h
      · exact ⟨le_refl _, by simp, hb⟩
      · have := ih h
        exact ⟨by omega, by omega, this.2.2⟩

/-- The memory LOAD makes has the canonical form. -/
theorem Memory.wf_ofBytes (bs : List Byte) (hr : a + bs.length ≤ 0x1000) :
    Memory.wf font (Memory.ofBytes font a bs) := by
  refine ⟨?_, fun c hc => ?_⟩
  · clear hr
    induction bs generalizing a with
    | nil => simp [Memory.ofBytes]
    | cons b bs ih =>
      simp only [Memory.ofBytes]
      split
      · exact ih
      · rw [List.pairwise_cons]
        exact ⟨fun d hd => Nat.lt_of_succ_le (Memory.mem_ofBytes hd).1, ih⟩
  · have := Memory.mem_ofBytes hc
    exact ⟨by omega, this.2.2⟩

theorem Memory.lookup_eq_none_of_lt {bs : List Byte} {a a' : Nat} (h : a' < a) :
    Memory.lookup a' (Memory.ofBytes font a bs) = none := by
  induction bs generalizing a with
  | nil => rfl
  | cons b bs ih =>
    simp only [Memory.ofBytes]
    split
    · exact ih (by omega)
    · simp only [Memory.lookup]
      rw [if_neg (by omega)]
      exact ih (by omega)

/-- Byte `j` of the list is read at `a + j`, every other address reads as its reset contents. -/
theorem Memory.read_ofBytes (font : Vector Byte 80) (a a' : Nat) (bs : List Byte) :
    Memory.read font (Memory.ofBytes font a bs) a' =
      if h : a ≤ a' ∧ a' - a < bs.length then bs[a' - a]'h.2 else Memory.background font a' := by
  induction bs generalizing a with
  | nil => simp [Memory.read, Memory.ofBytes, Memory.lookup]
  | cons b bs ih =>
    have step : Memory.read font (Memory.ofBytes font a (b :: bs)) a' =
        if a' = a then b else Memory.read font (Memory.ofBytes font (a + 1) bs) a' := by
      unfold Memory.read
      simp only [Memory.ofBytes]
      split
      · rename_i hb
        by_cases ha : a' = a
        · subst ha
          rw [Memory.lookup_eq_none_of_lt (by omega)]
          simp [hb]
        · rw [if_neg ha]
      · simp only [Memory.lookup]
        by_cases ha : a' = a
        · simp [ha]
        · rw [if_neg ha, if_neg (by omega)]
    rw [step, ih]
    by_cases ha : a' = a
    · subst ha; simp
    · rw [if_neg ha]
      by_cases h1 : a + 1 ≤ a' ∧ a' - (a + 1) < bs.length
      · have h2 : a ≤ a' ∧ a' - a < (b :: bs).length := by simp only [List.length_cons]; omega
        rw [dif_pos h1, dif_pos h2]
        have : a' - a = (a' - (a + 1)) + 1 := by omega
        simp [this]
      · rw [dif_neg h1, dif_neg (by simp only [List.length_cons]; omega)]

end Sys2Proof.Machine
end

