-- ==== Sys2Proof/Laws/Registers.lean ====
section
/-! SUPPORT. What reading a general register gives after each way of writing one (R11, R121, R145). -/

namespace Sys2Proof.Machine

theorem State.readV_writeV (s : State) (r q : RegIdx) (b : Byte) :
    (s.writeV r b).readV q = if q = r then b else s.readV q := by
  simp only [State.readV, State.writeV, Vector.get_eq_getElem, Vector.getElem_set, Fin.ext_iff]
  split <;> split <;> first | rfl | omega

@[simp] theorem State.readV_writeV_same (s : State) (r : RegIdx) (b : Byte) : (s.writeV r b).readV r = b := by
  simp [State.readV_writeV]

theorem State.readV_writeV_other (s : State) {r q : RegIdx} (b : Byte) (h : q ≠ r) :
    (s.writeV r b).readV q = s.readV q := by
  simp [State.readV_writeV, h]

/-- The flag is written last and wins (R121). -/
theorem State.readV_writeResultAndFlag (s : State) (x q : RegIdx) (b : Byte) (c : Bool) :
    (s.writeResultAndFlag x b c).readV q =
      if q = regVF then flagByte c else if q = x then b else s.readV q := by
  simp [State.writeResultAndFlag, State.readV_writeV]

@[simp] theorem State.readV_writeResultAndFlag_flag (s : State) (x : RegIdx) (b : Byte) (c : Bool) :
    (s.writeResultAndFlag x b c).readV regVF = flagByte c := by
  simp [State.readV_writeResultAndFlag]

theorem State.readV_loadRegsUpTo (s : State) (x q : RegIdx) :
    (s.loadRegsUpTo x).readV q = if q ≤ x then s.readByte (s.index.toNat + q.val) else s.readV q := by
  simp [State.readV, State.loadRegsUpTo, State.dataBase, Vector.get_eq_getElem]

/-- Two states whose registers all read alike have the same registers. -/
theorem State.v_eq_of_readV {s t : State} (h : ∀ q, t.readV q = s.readV q) : t.v = s.v := by
  refine Vector.ext fun i hi => ?_
  simpa [State.readV, Vector.get_eq_getElem] using h ⟨i, hi⟩

theorem State.length_regsUpTo (s : State) (x : RegIdx) : (s.regsUpTo x).length = x.val + 1 := by
  simp [State.regsUpTo]

theorem State.getElem_regsUpTo (s : State) (x : RegIdx) (k : Nat) (h : k < (s.regsUpTo x).length) :
    (s.regsUpTo x)[k] = s.readV ⟨k, by have := s.length_regsUpTo x; have := x.isLt; omega⟩ := by
  simp [State.regsUpTo, State.readV, Vector.get_eq_getElem]

end Sys2Proof.Machine
end

