-- ==== Sys2Proof/Laws/Ops.lean ====
section
/-! SUPPORT. One lemma per shared operation that says everything it can do; later proofs cite it and do not unfold the
operation. -/

namespace Sys2Proof.Machine

/-! ### The return stack (R101, R102) -/

/-- A push succeeds exactly on a stack that is not full, and writes one entry and sp. -/
theorem State.push_eq_some {s t : State} {ret : Word} :
    s.push ret = some t ↔ ∃ h : s.sp.val < 16,
      t = { s with stack := s.stack.set s.sp.val ret h, sp := ⟨s.sp.val + 1, by omega⟩ } := by
  unfold State.push
  split
  · rename_i h
    simp only [Option.some.injEq, h, exists_true_left, eq_comm]
  · rename_i h
    simp [h]

theorem State.push_eq_none {s : State} {ret : Word} : s.push ret = none ↔ s.sp = 16 := by
  have := s.sp.isLt
  unfold State.push
  split
  · rename_i h
    simp only [reduceCtorEq, false_iff, Fin.ext_iff]
    exact fun h16 => absurd (h16 : s.sp.val = 16) (by omega)
  · rename_i h
    simp only [true_iff, Fin.ext_iff]
    exact (by omega : s.sp.val = 16)

/-- A pop succeeds exactly on a stack that is not empty, gives the entry at sp - 1 and writes sp only. -/
theorem State.pop_eq_some {s t : State} {w : Word} :
    s.pop = some (w, t) ↔ ∃ h : 0 < s.sp.val,
      w = s.stack[s.sp.val - 1]'(by omega) ∧ t = { s with sp := ⟨s.sp.val - 1, by omega⟩ } := by
  unfold State.pop
  split
  · rename_i h
    simp only [Option.some.injEq, Prod.mk.injEq, h, exists_true_left, eq_comm]
  · rename_i h
    simp [h]

theorem State.pop_eq_none {s : State} : s.pop = none ↔ s.sp = 0 := by
  unfold State.pop
  split
  · rename_i h
    simp only [reduceCtorEq, false_iff, Fin.ext_iff]
    exact fun h0 => absurd (h0 : s.sp.val = 0) (by omega)
  · rename_i h
    simp only [true_iff, Fin.ext_iff]
    exact (by omega : s.sp.val = 0)

/-! ### The data range (R45) -/

theorem dataInRange_iff {base n : Nat} : dataInRange base n = true ↔ n = 0 ∨ base + n ≤ 0x1000 := by
  simp only [dataInRange, decide_eq_true_eq]
  omega

/-- A data access goes on when its range is inside memory. -/
theorem State.withData_of_inRange {s : State} {n : Nat} (h : n = 0 ∨ s.index.toNat + n ≤ 0x1000) (go : StepOutcome) :
    s.withData n go = go :=
  if_pos (dataInRange_iff.2 h)

/-- A data access whose range passes 0xFFF raises AddressOutOfRange(data, I, n) (R194 b). -/
theorem State.withData_of_outOfRange {s : State} {n : Nat} (h : ¬ (n = 0 ∨ s.index.toNat + n ≤ 0x1000))
    (go : StepOutcome) : s.withData n go = .fault (.addressOutOfRange (.data s.index n)) :=
  if_neg (fun h' => h (dataInRange_iff.1 h'))

/-- All a data access can do. -/
theorem State.withData_cases (s : State) (n : Nat) (go : StepOutcome) :
    ((n = 0 ∨ s.index.toNat + n ≤ 0x1000) ∧ s.withData n go = go) ∨
    (¬ (n = 0 ∨ s.index.toNat + n ≤ 0x1000) ∧ s.withData n go = .fault (.addressOutOfRange (.data s.index n))) := by
  by_cases h : n = 0 ∨ s.index.toNat + n ≤ 0x1000
  · exact .inl ⟨h, State.withData_of_inRange h go⟩
  · exact .inr ⟨h, State.withData_of_outOfRange h go⟩

/-! ### Key numbers (R176) -/

/-- All a key access can do: go on with the key V[X] names, or raise AddressOutOfRange(key, V[X]) (R194 c). -/
theorem State.withKey_cases (s : State) (x : RegIdx) (go : Fin 16 → StepOutcome) :
    (∃ k : Fin 16, k.val = (s.readV x).toNat ∧ s.withKey x go = go k) ∨
    (15 < (s.readV x).toNat ∧ s.withKey x go = .fault (.addressOutOfRange (.key (s.readV x)))) := by
  unfold State.withKey keyNumber
  by_cases h : (s.readV x).toNat ≤ 15
  · exact .inl ⟨⟨(s.readV x).toNat, by omega⟩, rfl, by simp [h]⟩
  · exact .inr ⟨by omega, by simp [h, raiseFault]⟩

/-- The key a key-wait takes is pressed and is the least such (R177). -/
theorem State.lowestKey_eq_some {s : State} {k : Fin 16} :
    s.lowestKey = some k ↔ s.keyDown k = true ∧ ∀ j < k, s.keyDown j = false := by
  unfold State.lowestKey
  rw [List.find?_eq_some_iff_getElem]
  constructor
  · rintro ⟨hk, i, hi, rfl, hlt⟩
    refine ⟨hk, fun j hj => ?_⟩
    have hj' : j.val < i := by simpa [Fin.lt_def] using hj
    simpa using hlt j.val hj'
  · rintro ⟨hk, hlt⟩
    refine ⟨hk, k.val, by simp, by simp, fun j hj => ?_⟩
    have := k.isLt
    simpa using hlt ⟨j, by omega⟩ hj

/-- A key-wait finds no key exactly when none is pressed. -/
theorem State.lowestKey_eq_none {s : State} : s.lowestKey = none ↔ ∀ k, s.keyDown k = false := by
  simp [State.lowestKey, List.find?_eq_none]

/-! ### Fetch and dispatch (R44, R80) -/

/-- All a fetch can do. -/
theorem State.fetch_cases (s : State) :
    (0xFFF ≤ s.pc.toNat ∧ s.fetch = .error (.addressOutOfRange (.fetch s.pc))) ∨
    (s.pc.toNat < 0xFFF ∧
      s.fetch = .ok (wordOfBytes (s.readByte s.pc.toNat) (s.readByte (s.pc.toNat + 1)))) := by
  unfold State.fetch
  by_cases h : s.pc.toNat ≥ 0xFFF
  · exact .inl ⟨h, if_pos h⟩
  · exact .inr ⟨by omega, if_neg h⟩

/-- A STEP that succeeds executed the instruction it fetched, with the outputs cleared, and then ticked (R80). -/
theorem step_eq_next {s t : State} :
    step s = .next t ↔ ∃ i u, s.fetchInstr = .ok i ∧ exec i s.beginStep = .next u ∧ t = u.tick := by
  unfold step
  cases h : s.fetchInstr with
  | error f => simp [raiseFault]
  | ok i =>
    cases hx : exec i s.beginStep with
    | next u => simp [completeStep, hx, eq_comm]
    | fault f => simp [completeStep, hx]
    | refused r => simp [completeStep, hx]

/-- A STEP faults at the fetch, at dispatch, or in the instruction it executed, and in no other way (R198). -/
theorem step_eq_fault {s : State} {f : Fault} :
    step s = .fault f ↔ s.fetchInstr = .error f ∨ ∃ i, s.fetchInstr = .ok i ∧ exec i s.beginStep = .fault f := by
  unfold step
  cases h : s.fetchInstr with
  | error g => simp [raiseFault]
  | ok i =>
    cases hx : exec i s.beginStep with
    | next u => simp [completeStep, hx]
    | fault g => simp [completeStep, hx]
    | refused r => simp [completeStep, hx]

/-! ### Flags and bytes -/

@[simp] theorem flagByte_toNat (c : Bool) : (flagByte c).toNat = if c then 1 else 0 := by cases c <;> rfl

@[simp] theorem sumByte_toNat (a b : Byte) : (sumByte a b).toNat = (a.toNat + b.toNat) % 256 := by
  simp [sumByte]

@[simp] theorem diffByte_toNat (a b : Byte) : (diffByte a b).toNat = (a.toNat + 256 - b.toNat) % 256 := by
  simp [diffByte]

@[simp] theorem tickDown_toNat (t : Byte) : (tickDown t).toNat = t.toNat - 1 := by
  unfold tickDown
  split
  · rename_i h; simp [h]
  · rename_i h
    have h0 : t.toNat ≠ 0 := fun h0 => h (BitVec.eq_of_toNat_eq (by simpa using h0))
    have := t.isLt
    rw [BitVec.toNat_sub]
    simp
    omega

@[simp] theorem addrWord_toNat (a : Addr) : (addrWord a).toNat = a.toNat := by
  have := a.isLt
  simp [addrWord]
  omega

@[simp] theorem byteWord_toNat (b : Byte) : (byteWord b).toNat = b.toNat := by
  have := b.isLt
  simp [byteWord]
  omega

end Sys2Proof.Machine
end

