-- ==== Sys2Proof/Laws/Exec.lean ====
section
/-! SUPPORT. What an instruction that succeeds has done, for the instructions that can end in more than one way: the
inversion lemmas that later proofs cite. Every other instruction answers `.next` of one state, by `rfl`. -/

namespace Sys2Proof.Machine

variable {s t : State} {x y : RegIdx}

theorem exec_call_eq_next {nnn : Addr} :
    exec (.call nnn) s = .next t ↔ ∃ h : s.sp.val < 16,
      t = { s with stack := s.stack.set s.sp.val (s.pc + 2) h, sp := ⟨s.sp.val + 1, by omega⟩, pc := addrWord nnn } := by
  simp only [exec, execCall]
  split
  · rename_i u hu
    obtain ⟨h, rfl⟩ := State.push_eq_some.1 hu
    simp only [Host.Outcome.next.injEq, h, exists_true_left, eq_comm]
    rfl
  · rename_i hu
    have h16 : s.sp.val = 16 := congrArg Fin.val (State.push_eq_none.1 hu)
    simp only [raiseFault, reduceCtorEq, false_iff, not_exists]
    intro h
    omega

theorem exec_ret_eq_next :
    exec .ret s = .next t ↔ ∃ h : 0 < s.sp.val,
      t = { s with sp := ⟨s.sp.val - 1, by omega⟩, pc := s.stack[s.sp.val - 1]'(by omega) } := by
  simp only [exec, execRet]
  split
  · rename_i w u hu
    obtain ⟨h, rfl, rfl⟩ := State.pop_eq_some.1 hu
    simp only [Host.Outcome.next.injEq, h, exists_true_left, eq_comm]
    rfl
  · rename_i hu
    have h0 : s.sp.val = 0 := congrArg Fin.val (State.pop_eq_none.1 hu)
    simp only [raiseFault, reduceCtorEq, false_iff, not_exists]
    intro h
    omega

theorem exec_jpV0_eq_next {nnn : Addr} :
    exec (.jpV0 nnn) s = .next t ↔
      s.cfg.jumpOffset = .v0Exact ∧ t = s.setPc (addrWord nnn + byteWord (s.readV regV0)) := by
  simp only [exec, execJpV0]
  split <;> rename_i h <;> simp [h, eq_comm]

/-- A data access succeeds exactly when its range is inside memory, and then does what follows the check. -/
theorem State.withData_eq_next {n : Nat} {u : State} :
    s.withData n (.next u) = .next t ↔ (n = 0 ∨ s.index.toNat + n ≤ 0x1000) ∧ t = u := by
  rcases s.withData_cases n (.next u) with ⟨h, he⟩ | ⟨h, he⟩ <;> simp [he, h, eq_comm]

theorem exec_ldB_eq_next :
    exec (.ldB x) s = .next t ↔
      s.index.toNat + 3 ≤ 0x1000 ∧ t = (s.writeBytes s.dataBase (bcdDigits (s.readV x))).advance := by
  refine (State.withData_eq_next (n := 3)).trans ?_
  simp

theorem exec_storeRegs_eq_next :
    exec (.storeRegs x) s = .next t ↔
      s.index.toNat + (x.val + 1) ≤ 0x1000 ∧ t = (s.writeBytes s.dataBase (s.regsUpTo x)).advance := by
  refine (State.withData_eq_next (n := x.val + 1)).trans ?_
  simp

theorem exec_loadRegs_eq_next :
    exec (.loadRegs x) s = .next t ↔
      s.index.toNat + (x.val + 1) ≤ 0x1000 ∧ t = (s.loadRegsUpTo x).advance := by
  refine (State.withData_eq_next (n := x.val + 1)).trans ?_
  simp

/-- The display and the collision of a draw. -/
theorem exec_drw_eq_next {n : Nibble} :
    exec (.drw x y n) s = .next t ↔
      (n.toNat = 0 ∨ s.index.toNat + n.toNat ≤ 0x1000) ∧
      ∃ r, r = s.blit (s.readV x) (s.readV y) (s.readBytes s.dataBase n.toNat) ∧
        t = (({ s with fb := r.1 }.writeV regVF (flagByte r.2)).markDirty).advance := by
  refine (State.withData_eq_next (n := n.toNat)).trans ?_
  simp

theorem State.withKey_eq_next {go : Fin 16 → State} :
    s.withKey x (fun k => .next (go k)) = .next t ↔
      ∃ k : Fin 16, k.val = (s.readV x).toNat ∧ t = go k := by
  rcases s.withKey_cases x (fun k => .next (go k)) with ⟨k, hk, he⟩ | ⟨h, he⟩
  · rw [he]
    constructor
    · intro h
      cases h
      exact ⟨k, hk, rfl⟩
    · rintro ⟨k', hk', rfl⟩
      rw [Fin.ext (hk'.trans hk.symm)]
  · rw [he]
    simp only [reduceCtorEq, false_iff, not_exists, not_and]
    intro k hk
    have := k.isLt
    omega

theorem exec_skp_eq_next :
    exec (.skp x) s = .next t ↔ ∃ k : Fin 16, k.val = (s.readV x).toNat ∧ t = s.skipIf (s.keyDown k) :=
  State.withKey_eq_next

theorem exec_sknp_eq_next :
    exec (.sknp x) s = .next t ↔ ∃ k : Fin 16, k.val = (s.readV x).toNat ∧ t = s.skipIf (!s.keyDown k) :=
  State.withKey_eq_next

theorem exec_ldVxK_eq_next :
    exec (.ldVxK x) s = .next t ↔
      (∃ k, s.lowestKey = some k ∧ t = (s.writeV x (BitVec.ofNat 8 k.val)).advance) ∨
      (s.lowestKey = none ∧ t = s) := by
  simp only [exec, execLdVxK]
  split <;> rename_i h <;> simp [h, eq_comm]

theorem exec_addI_eq_next :
    exec (.addI x) s = .next t ↔ ∃ u, u = s.writeIndex (BitVec.ofNat 16 (s.index.toNat + (s.readV x).toNat)) ∧
      t = (match s.cfg.indexAddVF with
        | .none => u
        | .carry16 => u.writeV regVF (flagByte (decide (s.index.toNat + (s.readV x).toNat > 0xFFFF)))
        | .over12 => u.writeV regVF (flagByte (decide (s.index.toNat + (s.readV x).toNat > 0x0FFF)))).advance := by
  simp only [exec, execAddI, indexSum, indexAddFlag, Host.Outcome.next.injEq]
  cases s.cfg.indexAddVF <;> simp [State.writeFlagIf, eq_comm]

/-! ### Pixels (R19, R162) -/

theorem Framebuffer.pixel_toggle (fb : Framebuffer) (x x' : Fin 64) (y y' : Fin 32) :
    (fb.toggle x y).pixel x' y' = (fb.pixel x' y' ^^ decide (x' = x ∧ y' = y)) := by
  have hx := x'.isLt
  unfold Framebuffer.pixel Framebuffer.toggle
  simp only [Vector.get_eq_getElem, Vector.getElem_set]
  by_cases hy : y' = y
  · subst hy
    simp [Fin.ext_iff, eq_comm]
  · rw [if_neg (fun h => hy (Fin.ext h.symm))]
    simp [hy]

@[simp] theorem Framebuffer.pixel_clear (x : Fin 64) (y : Fin 32) : Framebuffer.clear.pixel x y = false := by
  simp [Framebuffer.pixel, Framebuffer.clear, Vector.get_eq_getElem]

/-- Two displays with the same pixels are equal. -/
theorem Framebuffer.eq_of_pixel {fb fb' : Framebuffer} (h : ∀ x y, fb.pixel x y = fb'.pixel x y) : fb = fb' := by
  refine Vector.ext fun i hi => BitVec.eq_of_getLsbD_eq fun j hj => ?_
  simpa [Framebuffer.pixel, Vector.get_eq_getElem] using h ⟨j, hj⟩ ⟨i, hi⟩

end Sys2Proof.Machine
end

