-- ==== Sys2Proof/Laws/PerInstr.lean ====
section
/-! SUPPORT. Facts about every instruction as syntax, one lemma per constructor. -/

namespace Sys2Proof.Laws.EncodesLegally

/-- The encoder's word of an instruction is none of the illegal words of R66. -/
def Statement (i : Instr) : Prop := illegalWord (encodeWord i) = false

theorem cls : Statement .cls := rfl
theorem ret : Statement .ret := rfl
theorem jp (nnn : Addr) : Statement (.jp nnn) := by simp [Statement, illegalWord, encodeWord]
theorem call (nnn : Addr) : Statement (.call nnn) := by simp [Statement, illegalWord, encodeWord]
theorem seImm (x : RegIdx) (nn : Byte) : Statement (.seImm x nn) := by simp [Statement, illegalWord, encodeWord]
theorem sneImm (x : RegIdx) (nn : Byte) : Statement (.sneImm x nn) := by simp [Statement, illegalWord, encodeWord]
theorem seReg (x y : RegIdx) (n : Nibble) : Statement (.seReg x y n) := by simp [Statement, illegalWord, encodeWord]
theorem ldImm (x : RegIdx) (nn : Byte) : Statement (.ldImm x nn) := by simp [Statement, illegalWord, encodeWord]
theorem addImm (x : RegIdx) (nn : Byte) : Statement (.addImm x nn) := by simp [Statement, illegalWord, encodeWord]
theorem ldReg (x y : RegIdx) : Statement (.ldReg x y) := by simp [Statement, illegalWord, encodeWord]
theorem orReg (x y : RegIdx) : Statement (.orReg x y) := by simp [Statement, illegalWord, encodeWord]
theorem andReg (x y : RegIdx) : Statement (.andReg x y) := by simp [Statement, illegalWord, encodeWord]
theorem xorReg (x y : RegIdx) : Statement (.xorReg x y) := by simp [Statement, illegalWord, encodeWord]
theorem addReg (x y : RegIdx) : Statement (.addReg x y) := by simp [Statement, illegalWord, encodeWord]
theorem subReg (x y : RegIdx) : Statement (.subReg x y) := by simp [Statement, illegalWord, encodeWord]
theorem shr (x y : RegIdx) : Statement (.shr x y) := by simp [Statement, illegalWord, encodeWord]
theorem subnReg (x y : RegIdx) : Statement (.subnReg x y) := by simp [Statement, illegalWord, encodeWord]
theorem shl (x y : RegIdx) : Statement (.shl x y) := by simp [Statement, illegalWord, encodeWord]
theorem sneReg (x y : RegIdx) (n : Nibble) : Statement (.sneReg x y n) := by simp [Statement, illegalWord, encodeWord]
theorem ldI (nnn : Addr) : Statement (.ldI nnn) := by simp [Statement, illegalWord, encodeWord]
theorem jpV0 (nnn : Addr) : Statement (.jpV0 nnn) := by simp [Statement, illegalWord, encodeWord]
theorem rnd (x : RegIdx) (nn : Byte) : Statement (.rnd x nn) := by simp [Statement, illegalWord, encodeWord]
theorem drw (x y : RegIdx) (n : Nibble) : Statement (.drw x y n) := by simp [Statement, illegalWord, encodeWord]
theorem skp (x : RegIdx) : Statement (.skp x) := by simp [Statement, illegalWord, encodeWord]
theorem sknp (x : RegIdx) : Statement (.sknp x) := by simp [Statement, illegalWord, encodeWord]
theorem ldVxDT (x : RegIdx) : Statement (.ldVxDT x) := by simp [Statement, illegalWord, encodeWord]
theorem ldVxK (x : RegIdx) : Statement (.ldVxK x) := by simp [Statement, illegalWord, encodeWord]
theorem ldDTVx (x : RegIdx) : Statement (.ldDTVx x) := by simp [Statement, illegalWord, encodeWord]
theorem ldSTVx (x : RegIdx) : Statement (.ldSTVx x) := by simp [Statement, illegalWord, encodeWord]
theorem addI (x : RegIdx) : Statement (.addI x) := by simp [Statement, illegalWord, encodeWord]
theorem ldF (x : RegIdx) : Statement (.ldF x) := by simp [Statement, illegalWord, encodeWord]
theorem ldB (x : RegIdx) : Statement (.ldB x) := by simp [Statement, illegalWord, encodeWord]
theorem storeRegs (x : RegIdx) : Statement (.storeRegs x) := by simp [Statement, illegalWord, encodeWord]
theorem loadRegs (x : RegIdx) : Statement (.loadRegs x) := by simp [Statement, illegalWord, encodeWord]

end Sys2Proof.Laws.EncodesLegally
end

