-- ==== Sys2Proof/Tests/Slice0.lean ====
section
/-! SUPPORT. The model's own tests. Expected results are the spec's: the worked examples and vectors of
95_test_vectors.md (their S and T numbers stand in the names or beside them), the encodings of R65, the rules' own
examples. At the end, for each statement with hypotheses, states and operands that meet them. -/

namespace Sys2Proof.Tests

open Sys2Proof Sys2Proof.Machine Sys2Proof.Spec

/-! ### Well-formedness: an ill-formed term for each check -/

theorem test_illegal_0NNN : illegalWord 0x0000 = true ∧ illegalWord 0x01E0 = true ∧ illegalWord 0x00E1 = true := by decide
theorem test_illegal_8XYN : illegalWord 0x8128 = true ∧ illegalWord 0x812F = true := by decide
theorem test_illegal_EXNN : illegalWord 0xE19F = true := by decide
theorem test_illegal_FXNN : illegalWord 0xF100 = true ∧ illegalWord 0xF166 = true := by decide
theorem test_legal_words : illegalWord 0x00E0 = false ∧ illegalWord 0x5127 = false ∧ illegalWord 0xF165 = false := by decide
theorem test_rom_too_long : romFits (List.replicate 3585 0) = false ∧ romFits (List.replicate 3584 0) = true := by
  simp only [romFits, List.length_replicate]
  decide
theorem test_key_index_out_of_domain : keyIndexInDomain 16 = false ∧ keyIndexInDomain 15 = true := by decide

/-! ### Decoding: one word per row of R65, written from its pattern; and the table's numbering of bits -/

theorem test_decode_cls : decodeWord 0x00E0 = .ok .cls := by decide
theorem test_decode_ret : decodeWord 0x00EE = .ok .ret := by decide
theorem test_decode_jp : decodeWord 0x1ABC = .ok (.jp 0xABC) := by decide
theorem test_decode_call : decodeWord 0x2210 = .ok (.call 0x210) := by decide
theorem test_decode_seImm : decodeWord 0x3A05 = .ok (.seImm 10 0x05) := by decide
theorem test_decode_sneImm : decodeWord 0x4311 = .ok (.sneImm 3 0x11) := by decide
theorem test_decode_seReg : decodeWord 0x5127 = .ok (.seReg 1 2 7) := by decide
theorem test_decode_ldImm : decodeWord 0x6105 = .ok (.ldImm 1 0x05) := by decide
theorem test_decode_addImm : decodeWord 0x72FE = .ok (.addImm 2 0xFE) := by decide
theorem test_decode_ldReg : decodeWord 0x8120 = .ok (.ldReg 1 2) := by decide
theorem test_decode_orReg : decodeWord 0x8121 = .ok (.orReg 1 2) := by decide
theorem test_decode_andReg : decodeWord 0x8122 = .ok (.andReg 1 2) := by decide
theorem test_decode_xorReg : decodeWord 0x8123 = .ok (.xorReg 1 2) := by decide
theorem test_decode_addReg : decodeWord 0x8124 = .ok (.addReg 1 2) := by decide
theorem test_decode_subReg : decodeWord 0x8125 = .ok (.subReg 1 2) := by decide
theorem test_decode_shr : decodeWord 0x8126 = .ok (.shr 1 2) := by decide
theorem test_decode_subnReg : decodeWord 0x8127 = .ok (.subnReg 1 2) := by decide
theorem test_decode_shl : decodeWord 0x812E = .ok (.shl 1 2) := by decide
theorem test_decode_sneReg : decodeWord 0x9010 = .ok (.sneReg 0 1 0) := by decide
theorem test_decode_ldI : decodeWord 0xA300 = .ok (.ldI 0x300) := by decide
theorem test_decode_jpV0 : decodeWord 0xBFFF = .ok (.jpV0 0xFFF) := by decide
theorem test_decode_rnd : decodeWord 0xC30F = .ok (.rnd 3 0x0F) := by decide
theorem test_decode_drw : decodeWord 0xD125 = .ok (.drw 1 2 5) := by decide
theorem test_decode_skp : decodeWord 0xE29E = .ok (.skp 2) := by decide
theorem test_decode_sknp : decodeWord 0xE2A1 = .ok (.sknp 2) := by decide
theorem test_decode_ldVxDT : decodeWord 0xF107 = .ok (.ldVxDT 1) := by decide
theorem test_decode_ldVxK : decodeWord 0xF20A = .ok (.ldVxK 2) := by decide
theorem test_decode_ldDTVx : decodeWord 0xF015 = .ok (.ldDTVx 0) := by decide
theorem test_decode_ldSTVx : decodeWord 0xF018 = .ok (.ldSTVx 0) := by decide
theorem test_decode_addI : decodeWord 0xF21E = .ok (.addI 2) := by decide
theorem test_decode_ldF : decodeWord 0xF329 = .ok (.ldF 3) := by decide
theorem test_decode_ldB : decodeWord 0xF033 = .ok (.ldB 0) := by decide
theorem test_decode_storeRegs : decodeWord 0xF255 = .ok (.storeRegs 2) := by decide
theorem test_decode_loadRegs : decodeWord 0xF265 = .ok (.loadRegs 2) := by decide
/-- T4 to T9. -/
theorem test_decode_illegal_by_name : decodeWord 0x01E0 = .error (.illegalOpcode 0x01E0) ∧
    decodeWord 0x812F = .error (.illegalOpcode 0x812F) ∧ decodeWord 0xE19F = .error (.illegalOpcode 0xE19F) ∧
    decodeWord 0xF100 = .error (.illegalOpcode 0xF100) := by decide
/-- R43: `60 05` is 0x6005; the byte after it is left. -/
theorem test_decode_bytes_big_endian : decode [0x60, 0x05, 0x77] = .ok (.ldImm 0 5, [0x77]) ∧
    decode [0x60] = .error .truncated := by decide
theorem test_encode_bytes : encode (.drw 1 2 5) = [0xD1, 0x25] ∧ encode (.sneReg 0 1 0) = [0x90, 0x10] := by decide
theorem test_decode_table_word : decodeTableWord 16 0xD125 = some (.drw 1 2 5) ∧ decodeTableWord 16 0xF166 = none := by
  decide

/-! ### One STEP of one instruction -/

/-- The reset state with some registers set. -/
def regs (vs : List (RegIdx × Byte)) : State := vs.foldl (fun s p => s.writeV p.1 p.2) State.reset

/-- The reset state with some registers and I set. -/
def regsI (i : Word) (vs : List (RegIdx × Byte)) : State := (regs vs).writeIndex i

/-- One STEP of the word at pc; none when it does not succeed. -/
def ran (w : Nat) (s : State) : Option State :=
  match step (s.withFetchWord 16 w) with
  | .next t => some t
  | _ => none

/-- The fault of one STEP of the word at pc. -/
def faulted (w : Nat) (s : State) : Option Fault :=
  match step (s.withFetchWord 16 w) with
  | .fault f => some f
  | _ => none

def shiftVY (s : State) : State := { s with cfg := { s.cfg with shiftSrc := .vy } }
def addMode (m : IndexAddVF) (s : State) : State := { s with cfg := { s.cfg with indexAddVF := m } }
def jumpUndefined (s : State) : State := { s with cfg := { s.cfg with jumpOffset := .undefinedSetting } }
def pressed (ks : List Nat) (s : State) : State := ks.foldl (fun s k => (hostSetKey k true s).2) s
def stackOf (n : Fin 17) (w : Word) (s : State) : State := { s with sp := n, stack := Vector.replicate 16 w }
def timers (d t : Byte) (s : State) : State := { s with dt := d, st := t }
def memAt (a : Nat) (bs : List Byte) (s : State) : State := s.writeBytes a bs

-- Control transfer
theorem test_jp_T20 : (ran 0x1ABC (regs [])).map (·.pc) = some 0xABC := by decide
theorem test_call_T22 : (ran 0x2210 ((regs []).setPc 0x204)).map (fun t => (stackAt t 0, t.sp, t.pc)) =
    some (0x0206, 1, 0x210) := by decide
theorem test_call_full_T24 : faulted 0x2300 (stackOf 16 0 (regs [])) = some (.stackOverflow 0x200) := by decide
theorem test_ret_T25 : (ran 0x00EE (stackOf 1 0x206 (regs []))).map (fun t => (t.sp, t.pc)) = some (0, 0x206) := by decide
theorem test_ret_empty_T26 : faulted 0x00EE (regs []) = some (.stackUnderflow 0x200) := by decide
theorem test_jpV0_T28 : (ran 0xBFFF (regs [(0, 0xFF)])).map (·.pc) = some 0x10FE := by decide
theorem test_jpV0_uses_V0_T29 : (ran 0xB300 (regs [(0, 0x04), (3, 0x50)])).map (·.pc) = some 0x304 := by decide
theorem test_seImm_S5 : (ran 0x3005 (regs [(0, 5)])).map (·.pc) = some 0x204 ∧
    (ran 0x3005 (regs [(0, 4)])).map (·.pc) = some 0x202 := by decide
theorem test_sneImm_T30_T31 : (ran 0x4311 (regs [(3, 0x10)])).map (·.pc) = some 0x204 ∧
    (ran 0x4310 (regs [(3, 0x10)])).map (·.pc) = some 0x202 := by decide
theorem test_seReg_T11_T33 : (ran 0x5127 (regs [(1, 7), (2, 7)])).map (·.pc) = some 0x204 ∧
    (ran 0x5120 (regs [(1, 7), (2, 8)])).map (·.pc) = some 0x202 := by decide
theorem test_sneReg_T12_T36 : (ran 0x912F (regs [(1, 7), (2, 8)])).map (·.pc) = some 0x204 ∧
    (ran 0x9440 (regs [(4, 9)])).map (·.pc) = some 0x202 := by decide

-- Load and ALU
theorem test_ldImm_T41 : (ran 0x6F07 (regs [])).map (fun t => (t.readV 15, t.pc)) = some (7, 0x202) := by decide
theorem test_addImm_T43 : (ran 0x7001 (regs [(0, 0xFF)])).map (fun t => (t.readV 0, t.readV 15)) = some (0, 0) := by
  decide
theorem test_ldReg_T45 : (ran 0x8010 (regs [(1, 0xAB)])).map (·.readV 0) = some 0xAB := by decide
theorem test_or_T46 : (ran 0x8011 (regs [(0, 0xF0), (1, 0x0F), (15, 1)])).map (fun t => (t.readV 0, t.readV 15)) =
    some (0xFF, 1) := by decide
theorem test_and_T47 : (ran 0x8012 (regs [(0, 0xF3), (1, 0x3C)])).map (·.readV 0) = some 0x30 := by decide
theorem test_xor_T48 : (ran 0x8013 (regs [(0, 0xFF), (1, 0x0F)])).map (·.readV 0) = some 0xF0 := by decide
theorem test_add_T50 : (ran 0x8124 (regs [(1, 0xC8), (2, 0x64)])).map (fun t => (t.readV 1, t.readV 15)) =
    some (0x2C, 1) := by decide
theorem test_add_flag_last_T52_T53 : (ran 0x8F14 (regs [(15, 0x10), (1, 0x20)])).map (·.readV 15) = some 0 ∧
    (ran 0x8F14 (regs [(15, 0xF0), (1, 0x20)])).map (·.readV 15) = some 1 := by decide
theorem test_sub_T55 : (ran 0x8125 (regs [(1, 5), (2, 7)])).map (fun t => (t.readV 1, t.readV 15)) =
    some (0xFE, 0) := by decide
theorem test_sub_equal_T56 : (ran 0x8115 (regs [(1, 0x33)])).map (fun t => (t.readV 1, t.readV 15)) = some (0, 1) := by
  decide
theorem test_subn_T57 : (ran 0x8127 (regs [(1, 5), (2, 7)])).map (fun t => (t.readV 1, t.readV 15)) = some (2, 1) := by
  decide
theorem test_subn_T58 : (ran 0x8127 (regs [(1, 7), (2, 5)])).map (fun t => (t.readV 1, t.readV 15)) =
    some (0xFE, 0) := by decide
theorem test_shr_T59 : (ran 0x8126 (regs [(1, 5), (2, 8)])).map (fun t => (t.readV 1, t.readV 15)) = some (2, 1) := by
  decide
theorem test_shr_vy_T60 : (ran 0x8126 (shiftVY (regs [(1, 5), (2, 8)]))).map (fun t => (t.readV 1, t.readV 2, t.readV 15)) =
    some (4, 8, 0) := by decide
theorem test_shl_T61 : (ran 0x812E (regs [(1, 0x81)])).map (fun t => (t.readV 1, t.readV 15)) = some (2, 1) := by decide
theorem test_shl_vy_T62 : (ran 0x812E (shiftVY (regs [(1, 0x81), (2, 0x40)]))).map (fun t => (t.readV 1, t.readV 15)) =
    some (0x80, 0) := by decide

-- Index and memory
theorem test_ldI_T70 : (ran 0xA300 (regs [])).map (·.index) = some 0x300 := by decide
theorem test_addI_none_T73_T74 : (ran 0xF01E (regsI 0xFFFF [(0, 1)])).map (fun t => (t.index, t.readV 15)) = some (0, 0) ∧
    (ran 0xF01E (regsI 0x100 [(0, 1), (15, 7)])).map (fun t => (t.index, t.readV 15)) = some (0x101, 7) := by decide
theorem test_addI_flags_T72 :
    (ran 0xF01E (addMode .carry16 (regsI 0xFFF [(0, 1), (15, 7)]))).map (·.readV 15) = some 0 ∧
    (ran 0xF01E (addMode .over12 (regsI 0xFFF [(0, 1), (15, 7)]))).map (·.readV 15) = some 1 := by decide
theorem test_ldF_S7_T77 : (ran 0xF329 (regs [(3, 0x0A)])).map (·.index) = some 0x32 ∧
    (ran 0xF029 (regs [(0, 0xFF)])).map (·.index) = some 0x4FB := by decide
theorem test_ldB_T78 : (ran 0xF033 (regsI 0x300 [(0, 0xFE)])).map (fun t => t.readBytes 0x300 4) =
    some [2, 5, 4, 0] := by decide
theorem test_ldB_range_T82_T83 : (ran 0xF033 (regsI 0xFFD [])).isSome = true ∧
    faulted 0xF033 (regsI 0xFFE []) = some (.addressOutOfRange (.data 0xFFE 3)) := by decide
theorem test_storeRegs_T84 :
    (ran 0xF255 (regsI 0x400 [(0, 0x11), (1, 0x22), (2, 0x33), (3, 0x44)])).map (fun t => (t.readBytes 0x400 4, t.index)) =
      some ([0x11, 0x22, 0x33, 0], 0x400) := by decide
theorem test_storeRegs_range_T85_T86 : (ran 0xFF55 (regsI 0xFF0 [])).isSome = true ∧
    faulted 0xFF55 (regsI 0xFF1 []) = some (.addressOutOfRange (.data 0xFF1 16)) := by decide
theorem test_loadRegs_font_T90 : (ran 0xF465 (regs [(5, 0x55)])).map (fun t => t.v.toList.take 6) =
    some [0xF0, 0x90, 0x90, 0x90, 0xF0, 0x55] := by decide
theorem test_loadRegs_range_T91 : faulted 0xFF65 (regsI 0xFF8 []) = some (.addressOutOfRange (.data 0xFF8 16)) := by
  decide

-- Display
theorem test_cls_T100 : (ran 0x00E0 { regs [(15, 3)] with fb := Vector.replicate 32 5 }).map
    (fun t => (t.fb.pixel 0 31, t.dirty, t.out, t.readV 15)) = some (false, true, ⟨true, false⟩, 3) := by decide
/-- T102: glyph "5" at (5, 4): exactly the 14 pixels, row by row. -/
theorem test_drw_T102 : (ran 0xD125 (regsI 0x019 [(1, 5), (2, 4)])).map
    (fun t => (t.fb.toList.drop 3 |>.take 7, t.readV 15, t.out.displayDirty)) =
      some ([0, 0x1E0, 0x020, 0x1E0, 0x100, 0x1E0, 0], 0, true) := by decide +kernel
/-- T104: the sprite wraps over both edges. -/
theorem test_drw_wrap_T104 : (ran 0xD012 (memAt 0x300 [0xF0, 0xF0] (regsI 0x300 [(0, 62), (1, 31)]))).map
    (fun t => (t.fb.get 31, t.fb.get 0, t.fb.get 1, t.readV 15)) =
      some (0xC000000000000003, 0xC000000000000003, 0, 0) := by decide +kernel

-- Random, timers, keys
theorem test_rnd_T120 : (ran 0xC30F { regs [] with entropy := [0xB7, 0x55] }).map (fun t => (t.readV 3, t.entropy)) =
    some (0x07, [0x55]) := by decide
theorem test_ldVxDT_T123 : (ran 0xF107 (timers 5 0 (regs []))).map (fun t => (t.readV 1, t.dt)) = some (5, 4) := by decide
theorem test_ldDTVx_T125_T126 : (ran 0xF015 (regs [(0, 3)])).map (·.dt) = some 2 ∧
    (ran 0xF015 (regs [])).map (·.dt) = some 0 := by decide
theorem test_ldSTVx_T128_T129 : (ran 0xF018 (regs [(0, 2)])).map (fun t => (t.st, t.out)) = some (1, ⟨false, false⟩) ∧
    (ran 0xF018 (regs [(0, 1)])).map (fun t => (t.st, t.out)) = some (0, ⟨false, true⟩) := by decide
theorem test_skp_T131_T135 : (ran 0xE29E (pressed [7] (regs [(2, 7)]))).map (·.pc) = some 0x204 ∧
    faulted 0xE29E (regs [(2, 0x10)]) = some (.addressOutOfRange (.key 0x10)) := by decide
theorem test_sknp_T134_T136 : (ran 0xE2A1 (regs [(2, 7)])).map (·.pc) = some 0x204 ∧
    faulted 0xE2A1 (pressed [7] (regs [(2, 0x17)])) = some (.addressOutOfRange (.key 0x17)) := by decide
theorem test_ldVxK_T138 : (ran 0xF20A (pressed [9, 3] (regs []))).map (fun t => (t.readV 2, t.pc)) =
    some (3, 0x202) := by decide
theorem test_ldVxK_waits_T137 : (ran 0xF20A (timers 2 0 (regs [(2, 9)]))).map (fun t => (t.readV 2, t.pc, t.dt)) =
    some (9, 0x200, 1) := by decide

-- The STEP and the host
theorem test_fetch_bound_T13_T14 : (ran 0x1200 ((regs []).setPc 0xFFE)).map (·.pc) = some 0x200 ∧
    step ((regs []).setPc 0xFFF) = .fault (.addressOutOfRange (.fetch 0xFFF)) := ⟨by decide, rfl⟩
theorem test_odd_pc_T16 : (ran 0x6107 ((regs []).setPc 0x201)).map (fun t => (t.readV 1, t.pc)) = some (7, 0x203) := by
  decide
theorem test_first_step_T151 : step State.reset = .fault (.illegalOpcode 0) := rfl
theorem test_reset_T150 : State.reset.pc = 0x200 ∧ State.reset.readBytes 0x4B 6 = [0xF0, 0x80, 0xF0, 0x80, 0x80, 0] := by
  decide
theorem test_load_T153 : (hostLoad [0x60, 0x05] ((memAt 0x50 [1] (regs [(3, 9)])).setPc 0x2A0)).2.readBytes 0x200 3 =
    [0x60, 0x05, 0] ∧
    (hostLoad [0x60, 0x05] ((memAt 0x50 [1] (regs [(3, 9)])).setPc 0x2A0)).2.readByte 0x50 = 0 := by decide
theorem test_setKey_T155 : keyAt (hostSetKey 4 true (regs [])).2 4 = true ∧
    keyAt (hostSetKey 4 false (hostSetKey 4 true (regs [])).2).2 4 = false := by decide
theorem test_hostStep_rnd_T122 : (hostStep 0xB7 ((regs []).withFetchWord 16 0xC3FF)).2.readV 3 = 0xB7 := by decide
theorem test_memory_canonical : (memAt 0x300 [7] (memAt 0x200 [1, 2] (regs []))).mem = [(0x200, 1), (0x201, 2), (0x300, 7)] ∧
    (memAt 0x201 [0] (memAt 0x200 [1, 2] (regs []))).mem = [(0x200, 1)] := by decide

/-! ### Witnesses: states and operands that meet the hypotheses of each statement, at the boundaries of its clauses -/

theorem witness_EncodeOfDecodeIsWord : decodeWord 0xF265 = .ok (.loadRegs 2) := by decide
theorem witness_DispatchIsTotal : ((regs []).withFetchWord 16 0x6005).fetch = .ok 0x6005 ∧
    State.reset.fetch = .ok 0x0000 := by decide
theorem witness_IllegalOpcodeExactlyForListedWords : State.reset.fetch = .ok 0x0000 ∧
    ((regs []).setPc 0xFFF).fetch = .error (.addressOutOfRange (.fetch 0xFFF)) := by decide
theorem witness_StepRunsDecodedInstruction_bounds : ((regs []).setPc 0xFFF).pc.toNat ≥ 0xFFF ∧
    ((regs []).setPc 0xFFE).pc.toNat < 0xFFF ∧
    (0x0000 : Word).toNat = (((regs []).setPc 0xFFE).readByte 0xFFE).toNat * 256 + (((regs []).setPc 0xFFE).readByte 0xFFF).toNat ∧
    decodeWord 0x0000 = .error (.illegalOpcode 0) := by decide
theorem witness_StepRunsDecodedInstruction_ok :
    (0x6005 : Word).toNat = (((regs []).withFetchWord 16 0x6005).readByte 0x200).toNat * 256 +
      (((regs []).withFetchWord 16 0x6005).readByte 0x201).toNat ∧ decodeWord 0x6005 = .ok (.ldImm 0 5) ∧
    (∃ u, exec (.ldImm 0 5) { (regs []).withFetchWord 16 0x6005 with out := ⟨false, false⟩ } = .next u) ∧
    (∃ f, exec .ret { (regs []).withFetchWord 16 0x00EE with out := ⟨false, false⟩ } = .fault f) ∧
    (∃ r, exec (.jpV0 0) { jumpUndefined ((regs []).withFetchWord 16 0xB000) with out := ⟨false, false⟩ } = .refused r) :=
  ⟨by decide, by decide, ⟨_, rfl⟩, ⟨_, rfl⟩, ⟨_, rfl⟩⟩
/-- A STEP of each kind of output: a display instruction with ST at 1, and a plain one. -/
theorem witness_TickAndResultOfEveryStep :
    (timers 0 1 ((regs []).withFetchWord 16 0x00E0)).fetchInstr = .ok .cls ∧
    (∃ t, step (timers 0 1 ((regs []).withFetchWord 16 0x00E0)) = .next t ∧ t.out = ⟨true, true⟩) :=
  ⟨by decide, _, rfl, rfl⟩
theorem witness_PcAfterStepIsTable : ((regs []).withFetchWord 16 0xF20A).fetchInstr = .ok (.ldVxK 2) ∧
    (∃ t, step ((regs []).withFetchWord 16 0xF20A) = .next t ∧ t.pc.toNat = 0x200) := ⟨by decide, _, rfl, rfl⟩
/-- T38: a skip over an illegal word, and the same skip in another memory; and a CALL. -/
theorem witness_PcAfterStepIsTable_skip : (memAt 0x202 [0xFF, 0xFF] ((regs [(0, 5)]).withFetchWord 16 0x3005)).fetchInstr =
      .ok (.seImm 0 5) ∧ isSkip (.seImm 0 5) = true ∧
    (∃ t, step (memAt 0x202 [0xFF, 0xFF] ((regs [(0, 5)]).withFetchWord 16 0x3005)) = .next t ∧ t.pc.toNat = 0x204) ∧
    { memAt 0x202 [0xFF, 0xFF] ((regs [(0, 5)]).withFetchWord 16 0x3005) with mem := [(0x200, 0x30), (0x201, 5)] }.fetchInstr =
      .ok (.seImm 0 5) ∧
    ((regs []).withFetchWord 16 0x2210).fetchInstr = .ok (.call 0x210) :=
  ⟨by decide, by decide, ⟨_, rfl, by decide⟩, by decide, by decide⟩
theorem witness_CallPushesReturnAddress : (stackOf 15 0 (regs [])).sp.val < 16 ∧ (stackOf 16 0 (regs [])).sp.val = 16 := by
  decide
theorem witness_RetPopsReturnAddress : 0 < (stackOf 1 0 (regs [])).sp.val ∧ (regs []).sp.val = 0 := by decide
theorem witness_RetResumesAfterItsCall : ∃ t, exec (.call 0x300) (stackOf 15 0 (regs [])) = .next t ∧
    { t with pc := 0x300 }.stack = t.stack ∧ { t with pc := 0x300 }.sp = t.sp := ⟨_, rfl, rfl, rfl⟩
theorem witness_JpV0AddsV0 : (regs []).cfg.jumpOffset = .v0Exact ∧
    (jumpUndefined (regs [])).cfg.jumpOffset = .undefinedSetting := by decide
theorem witness_AddSetsCarry : (14 : RegIdx) ≠ 15 ∧
    ((regs [(14, 255)]).readV 14).toNat + ((regs [(14, 255)]).readV 0).toNat = 255 ∧
    ((regs [(14, 255), (0, 1)]).readV 14).toNat + ((regs [(14, 255), (0, 1)]).readV 0).toNat = 256 := by decide
theorem witness_SubtractsSetNotBorrow : (0 : RegIdx) ≠ 15 ∧
    ((regs [(0, 4), (1, 5)]).readV 0).toNat < ((regs [(0, 4), (1, 5)]).readV 1).toNat := by decide
theorem witness_ShiftsByOne :
    0x81 = (if (regs [(1, 0x81)]).cfg.shiftSrc = .vx then (regs [(1, 0x81)]).readV 1 else (regs [(1, 0x81)]).readV 2).toNat ∧
    0x40 = (if (shiftVY (regs [(2, 0x40)])).cfg.shiftSrc = .vx then (shiftVY (regs [(2, 0x40)])).readV 1
      else (shiftVY (regs [(2, 0x40)])).readV 2).toNat := by decide
theorem witness_IndexAdd : 0x1000 = (regsI 0xFFF [(0, 1)]).index.toNat + ((regsI 0xFFF [(0, 1)]).readV 0).toNat ∧
    (regsI 0xFFF [(0, 1)]).cfg.indexAddVF = .none ∧
    (addMode .carry16 (regsI 0xFFF [(0, 1)])).cfg.indexAddVF = .carry16 ∧
    (addMode .over12 (regsI 0xFFF [(0, 1)])).cfg.indexAddVF = .over12 := by decide
theorem witness_BcdStore : (regsI 0xFFD []).dataBase + 2 ≤ 0xFFF ∧ (regsI 0xFFE []).dataBase + 2 > 0xFFF := by decide
theorem witness_BlockStore : (regsI 0xFF0 []).dataBase + (15 : RegIdx).val ≤ 0xFFF ∧
    (regsI 0xFF1 []).dataBase + (15 : RegIdx).val > 0xFFF := by decide
theorem witness_BlockLoad : (regsI 0xFFF []).dataBase + (0 : RegIdx).val ≤ 0xFFF ∧
    (regsI 0x1000 []).dataBase + (0 : RegIdx).val > 0xFFF := by decide
theorem witness_BlockLoadUndoesBlockStore : ∃ t, exec (.storeRegs 15) (regsI 0xFF0 [(3, 7)]) = .next t := ⟨_, rfl⟩
/-- P7's self-modifying store: V0, V1 stored at 0x208 and fetched there. -/
theorem witness_StoredWordIsFetched : ∃ t, exec (.storeRegs 1) (regsI 0x208 [(0, 0x12), (1, 0x08)]) = .next t ∧
    (t.setPc 0x208).mem = t.mem ∧ (t.setPc 0x208).cfg = t.cfg ∧
    (t.setPc 0x208).pc.toNat = (regsI 0x208 [(0, 0x12), (1, 0x08)]).dataBase + (0 : RegIdx).val ∧
    (1 : RegIdx).val = (0 : RegIdx).val + 1 := ⟨_, rfl, rfl, rfl, rfl, rfl⟩
theorem witness_DrawXorsSprite : (regsI 0xFFD []).dataBase + (3 : Nibble).toNat - 1 ≤ 0xFFF ∧
    (0 < (3 : Nibble).toNat ∧ (regsI 0xFFE []).dataBase + (3 : Nibble).toNat - 1 > 0xFFF) ∧
    (0 : Nibble).toNat = 0 := by decide
/-- S3: the glyph "0" drawn twice at (0, 0) on a clear display. -/
theorem witness_DrawTwiceRestoresDisplay : ∃ t, exec (.drw 0 0 5) (regs []) = .next t ∧ t.fb = t.fb ∧
    t.index = (regs []).index ∧ (∀ a, t.readByte a = (regs []).readByte a) ∧ t.readV 0 = (regs []).readV 0 ∧
    (∀ px py, (regs []).fb.pixel px py = false) ∧ ∃ r < (5 : Nibble).toNat, (regs []).readByte ((regs []).index.toNat + r) ≠ 0 :=
  ⟨_, rfl, rfl, rfl, fun _ => rfl, rfl, by decide +kernel, 0, by decide, by decide⟩
theorem witness_DrawTwice_blank_sprite : ¬ ∃ r < (5 : Nibble).toNat, (regsI 0x300 []).readByte ((regsI 0x300 []).index.toNat + r) ≠ 0 := by
  decide
theorem witness_RandomMasksEntropyByte : { regs [] with entropy := [0xB7] }.entropy = 0xB7 :: [] ∧ (regs []).entropy = [] ∧
    ((regs []).withFetchWord 16 0xC30F).fetchInstr = .ok (.rnd 3 0x0F) ∧ (∀ y mm, Instr.cls ≠ .rnd y mm) :=
  ⟨by decide, by decide, by decide, by simp⟩
theorem witness_KeySkips : ((regs [(2, 15)]).readV 2).toNat ≤ 15 ∧ ((regs [(2, 16)]).readV 2).toNat > 15 := by decide
theorem witness_KeyWait : keyAt (pressed [15] (regs [])) 15 = true ∧ (∀ j < 15, keyAt (pressed [15] (regs [])) j = false) ∧
    (∀ k < 16, keyAt (regs []) k = false) := by decide
theorem witness_KeyWaitHoldsUntilKey : KeyWaiting 2 ((regs []).withFetchWord 16 0xF20A) := ⟨by decide, by decide⟩
theorem witness_IdleLoopRunsForEver : EndedAt 0x200 ((regs []).withFetchWord 16 0x1200) := ⟨by decide, by decide⟩
/-- Each of the four ways a STEP faults happens. -/
theorem witness_StepFaultsExactlyWhen : (∃ f, step ((regs []).setPc 0xFFF) = .fault f) ∧ (∃ f, step (regs []) = .fault f) ∧
    execFault (.skp 2) (regs [(2, 16)]) = some (.addressOutOfRange (.key 16)) ∧
    execFault (.drw 0 0 3) (regsI 0xFFE []) = some (.addressOutOfRange (.data 0xFFE 3)) := ⟨⟨_, rfl⟩, ⟨_, rfl⟩, by decide, by decide⟩
theorem witness_StepNeverRefuses : State.reset.cfg.jumpOffset = .v0Exact ∧
    exec (.jpV0 0) (jumpUndefined (regs [])) = .refused .jumpOffsetUndefined := ⟨by decide, rfl⟩
theorem witness_FaultIsPreciseAndRepeats : hostStep 0 (regs []) = (.fault (.illegalOpcode 0), regs []) := rfl
theorem witness_StackPointerChangesOnlyByCallRetReset : (∃ t, exec (.call 0x300) (stackOf 15 0 (regs [])) = .next t) ∧
    (∃ t, exec .ret (stackOf 1 0 (regs [])) = .next t) ∧ (∃ t, exec .cls (regs []) = .next t) ∧
    (HostOp.clearDirty ≠ .reset ∧ ∀ b, HostOp.clearDirty ≠ .step b) ∧ (stackOf 16 0 (regs [])).sp.val = 16 ∧
    (regs []).sp.val = 0 := ⟨⟨_, rfl⟩, ⟨_, rfl⟩, ⟨_, rfl⟩, by simp, by decide, by decide⟩
theorem witness_RegisterWritersAndFlagWriters : (∃ t, exec (.addReg 1 2) (regs [(1, 0xC8), (2, 0x64)]) = .next t ∧
    t.readV 15 ≠ (regs [(1, 0xC8), (2, 0x64)]).readV 15 ∧ t.readV 1 ≠ (regs [(1, 0xC8), (2, 0x64)]).readV 1) ∧
    setsVF defaultConfig (.addReg 1 2) = true := ⟨⟨_, rfl, by decide, by decide⟩, by decide⟩
theorem witness_WritersOfEachState_memory : ∃ t, exec (.ldB 0) (regsI 0x300 [(0, 7)]) = .next t ∧
    t.mem ≠ (regsI 0x300 [(0, 7)]).mem := ⟨_, rfl, by decide⟩
theorem witness_WritersOfEachState_index_timers : (∃ t, exec (.ldI 5) (regs []) = .next t ∧ t.index ≠ (regs []).index) ∧
    (∃ t, exec (.ldDTVx 0) (regs [(0, 7)]) = .next t ∧ t.dt ≠ (regs [(0, 7)]).dt) ∧
    (∃ t, exec (.ldSTVx 0) (regs [(0, 7)]) = .next t ∧ t.st ≠ (regs [(0, 7)]).st) ∧
    (∃ t, exec .cls (regs []) = .next t ∧ t.dirty ≠ (regs []).dirty) :=
  ⟨⟨_, rfl, by decide⟩, ⟨_, rfl, by decide⟩, ⟨_, rfl, by decide⟩, ⟨_, rfl, by decide⟩⟩
theorem witness_KeysReadOnlyByKeyInstructions : (∃ t, step ((regs []).withFetchWord 16 0x6005) = .next t) ∧
    (HostOp.clearDirty ≠ .reset ∧ ∀ k b, HostOp.clearDirty ≠ .setKey k b) ∧
    (∀ x, Instr.cls ≠ .skp x ∧ Instr.cls ≠ .sknp x ∧ Instr.cls ≠ .ldVxK x) := ⟨⟨_, rfl⟩, by simp, by simp⟩
theorem witness_EntropyReadOnlyByRandom : ∀ x nn, Instr.cls ≠ .rnd x nn := by simp
theorem witness_DirtyFlagRules : ((regs []).withFetchWord 16 0x00E0).fetchInstr = .ok .cls ∧
    (∃ t, step ((regs []).withFetchWord 16 0x00E0) = .next t) ∧
    (HostOp.readFb ≠ .reset ∧ HostOp.readFb ≠ .clearDirty ∧ ∀ b, HostOp.readFb ≠ .step b) := ⟨by decide, ⟨_, rfl⟩, by simp⟩
theorem witness_EveryStepKeepsInvariant : StateInv ((regs []).withFetchWord 16 0xF018) ∧
    ∃ t, step ((regs []).withFetchWord 16 0xF018) = .next t := ⟨by unfold StateInv; decide, ⟨_, rfl⟩⟩
theorem witness_ReachableStatesMeetInvariant : Reachable (hostOp (.load [0x60, 0x05]) (State.resetWith defaultConfig)).2 :=
  .op _ _ (.reset _)
theorem witness_EveryHostOperationKeepsInvariant : StateInv ((regs []).withFetchWord 16 0xF018) ∧
    ∃ out t, hostOp (.step 7) ((regs []).withFetchWord 16 0xF018) = (.ok out, t) :=
  ⟨by unfold StateInv; decide, _, _, rfl⟩
theorem witness_CanonicalMemoriesAreEqual : Memory.wf defaultFont [(0x200, 7), (0x300, 1)] := by decide
theorem witness_LoadCopiesRom : (List.replicate 3584 (1 : Byte)).length ≤ 3584 ∧
    (List.replicate 3585 (1 : Byte)).length > 3584 := by
  simp only [List.length_replicate]
  decide
theorem witness_FirstStepAfterResetAndLoad : (List.replicate 3582 (0 : Byte)).length ≤ 3582 := by
  simp only [List.length_replicate]
  decide
theorem witness_SetKeySetsOneKey : (15 : Nat) ≤ 15 ∧ (16 : Nat) ≥ 16 := by decide
theorem witness_ReadPortsHaveNoSideEffect : (HostOp.clearDirty ≠ .reset ∧ ∀ b, HostOp.clearDirty ≠ .step b) ∧
    (∃ t, step ({ regs [] with dirty := true }.withFetchWord 16 0x6005) = .next t) ∧
    ({ regs [] with dirty := true }.withFetchWord 16 0x6005).dirty = true := ⟨by simp, ⟨_, rfl⟩, rfl⟩

end Sys2Proof.Tests
end

section
/-! The stack pointer and the key latch over the whole machine (R16, R21): what every instruction and every host
operation keeps of them, and that only the key instructions read the latch. -/

namespace Sys2Proof.Machine

open Sys2Proof.Spec

variable {s t : State} {i : Instr}

/-! ### The two ends of the return stack (R192, R193) -/

theorem exec_call_of_full (nnn : Addr) (h : s.sp.val = 16) : exec (.call nnn) s = .fault (.stackOverflow s.pc) := by
  simp only [exec, execCall, State.push_eq_none.2 (Fin.ext h), raiseFault]

theorem exec_ret_of_empty (h : s.sp.val = 0) : exec .ret s = .fault (.stackUnderflow s.pc) := by
  simp only [exec, execRet, State.pop_eq_none.2 (Fin.ext h), raiseFault]

/-! ### What every instruction keeps -/

/-- Every instruction but CALL and RET keeps the return stack, the key latch and the parameters. -/
theorem exec_keepsStack_keysAndParams (hcall : ∀ nnn, i ≠ .call nnn) (hret : i ≠ .ret) (h : exec i s = .next t) :
    KeepsStack s t ∧ KeepsKeysAndParams s t := by
  unfold KeepsStack KeepsKeysAndParams
  cases i with
  | call nnn => exact absurd rfl (hcall nnn)
  | ret => exact absurd rfl hret
  | jpV0 nnn =>
    obtain ⟨-, rfl⟩ := exec_jpV0_eq_next.1 h
    simp
  | drw x y n =>
    obtain ⟨-, r, -, rfl⟩ := exec_drw_eq_next.1 h
    simp
  | skp x =>
    obtain ⟨k, -, rfl⟩ := exec_skp_eq_next.1 h
    simp
  | sknp x =>
    obtain ⟨k, -, rfl⟩ := exec_sknp_eq_next.1 h
    simp
  | ldVxK x =>
    obtain ⟨k, -, rfl⟩ | ⟨-, rfl⟩ := exec_ldVxK_eq_next.1 h <;> simp
  | addI x =>
    obtain ⟨u, rfl, rfl⟩ := exec_addI_eq_next.1 h
    cases s.cfg.indexAddVF <;> simp
  | ldB x =>
    obtain ⟨-, rfl⟩ := exec_ldB_eq_next.1 h
    simp
  | storeRegs x =>
    obtain ⟨-, rfl⟩ := exec_storeRegs_eq_next.1 h
    simp
  | loadRegs x =>
    obtain ⟨-, rfl⟩ := exec_loadRegs_eq_next.1 h
    simp
  | _ => cases h; exact ⟨⟨rfl, rfl⟩, rfl, rfl⟩

/-- No instruction writes the key latch or the parameters (R5, R21). -/
theorem exec_keepsKeysAndParams (h : exec i s = .next t) : KeepsKeysAndParams s t := by
  by_cases hcall : ∃ nnn, i = .call nnn
  · obtain ⟨nnn, rfl⟩ := hcall
    obtain ⟨_, rfl⟩ := exec_call_eq_next.1 h
    exact ⟨rfl, rfl⟩
  by_cases hret : i = .ret
  · subst hret
    obtain ⟨_, rfl⟩ := exec_ret_eq_next.1 h
    exact ⟨rfl, rfl⟩
  exact (exec_keepsStack_keysAndParams (not_exists.1 hcall) hret h).2

/-- No STEP writes the key latch or the parameters. -/
theorem step_keepsKeysAndParams (h : step s = .next t) : KeepsKeysAndParams s t := by
  obtain ⟨i, u, -, hexec, rfl⟩ := step_eq_next.1 h
  have hkeep : KeepsKeysAndParams s.beginStep u := exec_keepsKeysAndParams hexec
  exact hkeep

/-- What an instruction that succeeds does to sp: one up by CALL, one down by RET, the whole stack kept by every other
(R16). -/
theorem exec_sp_cases (h : exec i s = .next t) :
    ((∃ nnn, i = .call nnn) ∧ t.sp.val = s.sp.val + 1) ∨ (i = .ret ∧ t.sp.val + 1 = s.sp.val) ∨
    ((∀ nnn, i ≠ .call nnn) ∧ i ≠ .ret ∧ t.sp = s.sp ∧ t.stack = s.stack) := by
  by_cases hcall : ∃ nnn, i = .call nnn
  · obtain ⟨nnn, rfl⟩ := hcall
    obtain ⟨_, rfl⟩ := exec_call_eq_next.1 h
    exact .inl ⟨⟨nnn, rfl⟩, rfl⟩
  by_cases hret : i = .ret
  · subst hret
    obtain ⟨hpos, rfl⟩ := exec_ret_eq_next.1 h
    exact .inr (.inl ⟨rfl, Nat.sub_add_cancel hpos⟩)
  obtain ⟨hstack, hsp⟩ := (exec_keepsStack_keysAndParams (not_exists.1 hcall) hret h).1
  exact .inr (.inr ⟨not_exists.1 hcall, hret, hsp, hstack⟩)

/-! ### What the host's operations can do (R203) -/

/-- All a host's STEP can do: run one STEP with its byte first among the injected ones, or keep the state (R196). -/
theorem hostStep_cases (rnd : Byte) (s : State) :
    (∃ t, step { s with entropy := rnd :: s.entropy } = .next t ∧
      hostStep rnd s = (.ok t.out, { t with entropy := s.entropy })) ∨
    (∃ f, step { s with entropy := rnd :: s.entropy } = .fault f ∧ hostStep rnd s = (.fault f, s)) ∨
    (∃ r, step { s with entropy := rnd :: s.entropy } = .refused r ∧ hostStep rnd s = (.refused r, s)) := by
  unfold hostStep
  cases step { s with entropy := rnd :: s.entropy } with
  | next t => exact .inl ⟨t, rfl, rfl⟩
  | fault f => exact .inr (.inl ⟨f, rfl, rfl⟩)
  | refused r => exact .inr (.inr ⟨r, rfl, rfl⟩)

/-- LOAD writes memory only (R225). -/
theorem hostLoad_state (rom : List Byte) (s : State) : ∃ m, (hostLoad rom s).2 = { s with mem := m } := by
  unfold hostLoad
  split <;> exact ⟨_, rfl⟩

/-- SET_KEY writes the key latch only (R208). -/
theorem hostSetKey_state (k : Nat) (pressed : Bool) (s : State) :
    ∃ keys, (hostSetKey k pressed s).2 = { s with key := keys } := by
  unfold hostSetKey
  split <;> exact ⟨_, rfl⟩

/-- The host's operations other than STEP and RESET keep the return stack. -/
theorem hostOp_keepsStack (o : HostOp) (s : State) (hstep : ∀ b, o ≠ .step b) (hreset : o ≠ .reset) :
    KeepsStack s (hostOp o s).2 := by
  cases o with
  | reset => exact absurd rfl hreset
  | step rnd => exact absurd rfl (hstep rnd)
  | load rom =>
    obtain ⟨m, he⟩ := hostLoad_state rom s
    rw [hostOp, he]
    exact ⟨rfl, rfl⟩
  | setKey k pressed =>
    obtain ⟨keys, he⟩ := hostSetKey_state k pressed s
    rw [hostOp, he]
    exact ⟨rfl, rfl⟩
  | readFb | readDirty | clearDirty | readTimers => exact ⟨rfl, rfl⟩

/-- The host's operations other than RESET and SET_KEY keep the key latch, a STEP included. -/
theorem hostOp_keepsKey (o : HostOp) (s : State) (hreset : o ≠ .reset) (hset : ∀ k b, o ≠ .setKey k b) :
    (hostOp o s).2.key = s.key := by
  cases o with
  | reset => exact absurd rfl hreset
  | setKey k pressed => exact absurd rfl (hset k pressed)
  | step rnd =>
    obtain ⟨t, hstep, he⟩ | ⟨f, -, he⟩ | ⟨r, -, he⟩ := hostStep_cases rnd s
    · rw [hostOp, he]
      exact (step_keepsKeysAndParams hstep).1
    · rw [hostOp, he]
    · rw [hostOp, he]
  | load rom =>
    obtain ⟨m, he⟩ := hostLoad_state rom s
    rw [hostOp, he]
  | readFb | readDirty | clearDirty | readTimers => rfl

/-- RESET releases every key (R25). -/
theorem keyAt_hostReset (s : State) (k : Nat) : keyAt (hostReset s) k = false :=
  List.getElem?_getD_replicate_default_eq false 16 k

/-! ### The same state with other keys pressed -/

/-- The state with another key latch. -/
def State.withKeys (s : State) (keys : Vector Bool 16) : State := { s with key := keys }

theorem State.readBytes_congr (h : ∀ a, t.readByte a = s.readByte a) (a n : Nat) : t.readBytes a n = s.readBytes a n := by
  induction n generalizing a with
  | zero => rfl
  | succ n ih => simp only [State.readBytes, h, ih]

/-- The check of a data access reads the state it starts from, so it commutes with a change of the state reached. -/
theorem mapNext_withData (f : State → State) (s : State) (n : Nat) (go : StepOutcome) :
    mapNext f (s.withData n go) = s.withData n (mapNext f go) := by
  obtain ⟨h, he⟩ | ⟨h, he⟩ := s.withData_cases n go
  · rw [he, State.withData_of_inRange h]
  · rw [he, State.withData_of_outOfRange h, mapNext]

variable (keys : Vector Bool 16)

theorem State.readBytes_withKeys (a n : Nat) : (s.withKeys keys).readBytes a n = s.readBytes a n :=
  State.readBytes_congr (s := s) (t := s.withKeys keys) (fun _ => rfl) a n

theorem State.writeBytes_withKeys (a : Nat) (bs : List Byte) :
    (s.withKeys keys).writeBytes a bs = (s.writeBytes a bs).withKeys keys := by
  induction bs generalizing s a with
  | nil => rfl
  | cons b bs ih => exact ih (s := s.writeByte a b) (a + 1)

theorem exec_call_withKeys (nnn : Addr) (s : State) :
    exec (.call nnn) (s.withKeys keys) = mapNext (·.withKeys keys) (exec (.call nnn) s) := by
  by_cases h : s.sp.val < 16
  · rw [exec_call_eq_next.2 ⟨h, rfl⟩]
    exact exec_call_eq_next.2 ⟨h, rfl⟩
  · have hfull : s.sp.val = 16 := by omega
    rw [exec_call_of_full nnn hfull]
    exact exec_call_of_full nnn hfull

theorem exec_ret_withKeys (s : State) :
    exec .ret (s.withKeys keys) = mapNext (·.withKeys keys) (exec .ret s) := by
  by_cases h : 0 < s.sp.val
  · rw [exec_ret_eq_next.2 ⟨h, rfl⟩]
    exact exec_ret_eq_next.2 ⟨h, rfl⟩
  · have hempty : s.sp.val = 0 := by omega
    rw [exec_ret_of_empty hempty]
    exact exec_ret_of_empty hempty

theorem exec_jpV0_withKeys (nnn : Addr) (s : State) :
    exec (.jpV0 nnn) (s.withKeys keys) = mapNext (·.withKeys keys) (exec (.jpV0 nnn) s) := by
  simp only [exec, execJpV0, State.withKeys]
  cases s.cfg.jumpOffset <;> rfl

theorem exec_drw_withKeys (x y : RegIdx) (n : Nibble) (s : State) :
    exec (.drw x y n) (s.withKeys keys) = mapNext (·.withKeys keys) (exec (.drw x y n) s) := by
  simp only [exec, execDrw, State.readBytes_withKeys, mapNext_withData]
  rfl

theorem exec_addI_withKeys (x : RegIdx) (s : State) :
    exec (.addI x) (s.withKeys keys) = mapNext (·.withKeys keys) (exec (.addI x) s) := by
  simp only [exec, execAddI, indexAddFlag, State.withKeys]
  cases s.cfg.indexAddVF <;> rfl

theorem exec_ldB_withKeys (x : RegIdx) (s : State) :
    exec (.ldB x) (s.withKeys keys) = mapNext (·.withKeys keys) (exec (.ldB x) s) := by
  simp only [exec, execLdB, State.writeBytes_withKeys, mapNext_withData]
  rfl

theorem exec_storeRegs_withKeys (x : RegIdx) (s : State) :
    exec (.storeRegs x) (s.withKeys keys) = mapNext (·.withKeys keys) (exec (.storeRegs x) s) := by
  simp only [exec, execStoreRegs, State.writeBytes_withKeys, mapNext_withData]
  rfl

theorem exec_loadRegs_withKeys (x : RegIdx) (s : State) :
    exec (.loadRegs x) (s.withKeys keys) = mapNext (·.withKeys keys) (exec (.loadRegs x) s) := by
  simp only [exec, execLoadRegs, mapNext_withData]
  rfl

/-- Every instruction but the three key instructions does the same whatever keys are pressed (R21). -/
theorem exec_withKeys (i : Instr) (s : State) (hkey : ∀ x, i ≠ .skp x ∧ i ≠ .sknp x ∧ i ≠ .ldVxK x) :
    exec i (s.withKeys keys) = mapNext (·.withKeys keys) (exec i s) := by
  cases i with
  | skp x => exact absurd rfl (hkey x).1
  | sknp x => exact absurd rfl (hkey x).2.1
  | ldVxK x => exact absurd rfl (hkey x).2.2
  | call nnn => exact exec_call_withKeys keys nnn s
  | ret => exact exec_ret_withKeys keys s
  | jpV0 nnn => exact exec_jpV0_withKeys keys nnn s
  | drw x y n => exact exec_drw_withKeys keys x y n s
  | addI x => exact exec_addI_withKeys keys x s
  | ldB x => exact exec_ldB_withKeys keys x s
  | storeRegs x => exact exec_storeRegs_withKeys keys x s
  | loadRegs x => exact exec_loadRegs_withKeys keys x s
  | _ => rfl

end Sys2Proof.Machine

namespace Sys2Proof.Machine

/-- Settles O43: the bound is the type of sp, the instructions by `exec_sp_cases`, the host's operations by
`hostOp_keepsStack`, the two ends by the stack's own faults. -/
theorem stackPointerChangesOnlyByCallRetReset : Obligations.StackPointerChangesOnlyByCallRetReset := by
  unfold Obligations.StackPointerChangesOnlyByCallRetReset
  refine ⟨fun s => Nat.le_of_lt_succ s.sp.isLt, fun i s t h => exec_sp_cases h, fun s => rfl, ?_, ?_, ?_⟩
  · exact fun o s hstep hreset => (hostOp_keepsStack o s hstep hreset).2
  · exact fun s nnn h => exec_call_of_full nnn h
  · exact fun s h => exec_ret_of_empty h

/-- Settles O46: a STEP and the other host operations keep the latch, RESET clears it, and `exec_withKeys` is the
noninterference. -/
theorem keysReadOnlyByKeyInstructions : Obligations.KeysReadOnlyByKeyInstructions := by
  unfold Obligations.KeysReadOnlyByKeyInstructions
  refine ⟨fun s t h => (step_keepsKeysAndParams h).1, hostOp_keepsKey, keyAt_hostReset, ?_⟩
  exact fun i s keys hkey => exec_withKeys keys i s hkey

end Sys2Proof.Machine
end

section
/-! The dispatch as a search of the opcode map (R83): no word selects two rows, so the row found is the only one
selected, and a STEP does what decoding the fetched word says. -/

namespace Sys2Proof

/-! ### No word selects two rows of the opcode map (R65) -/

/-- Two rows ask for different values of the opcode bits that both their masks keep. -/
def Row.Disagree (r q : Row) : Prop := r.pattern &&& q.mask ≠ q.pattern &&& r.mask

/-- A word that selects both of two rows has the bits of each pattern that the other row's mask keeps. -/
theorem Row.Disagree.not_both_select {r q : Row} (h : r.Disagree q) {op : Word} (hr : r.selects op = true)
    (hq : q.selects op = true) : False := by
  simp only [Row.selects, beq_iff_eq] at hr hq
  apply h
  calc r.pattern &&& q.mask
      _ = op &&& r.mask &&& q.mask := by rw [hr]
      _ = op &&& q.mask &&& r.mask := by rw [BitVec.and_assoc, BitVec.and_comm r.mask, BitVec.and_assoc]
      _ = q.pattern &&& r.mask := by rw [hq]

/-- Any two rows of R65 disagree: a check of the 34 masks and patterns, with no opcode in it. -/
theorem opcodeMap_pairwise_disagree : opcodeMap.Pairwise Row.Disagree := by
  unfold Row.Disagree
  decide

/-- The row the decoder finds is the only one the word selects. -/
theorem filter_selects_of_find? {op : Word} {r : Row} (h : opcodeMap.find? (fun q => q.selects op) = some r) :
    opcodeMap.filter (fun q => q.selects op) = [r] := by
  have hpair := opcodeMap_pairwise_disagree.filter (fun q => q.selects op)
  have hsel : ∀ q ∈ opcodeMap.filter (fun q => q.selects op), q.selects op = true :=
    fun q hq => (List.mem_filter.1 hq).2
  rw [← List.head?_filter] at h
  match hf : opcodeMap.filter (fun q => q.selects op) with
  | [] => simp [hf] at h
  | [a] => simpa [hf] using h
  | a :: b :: rest =>
    rw [hf] at hpair hsel
    have hab : a.Disagree b := List.rel_of_pairwise_cons hpair List.mem_cons_self
    exact (hab.not_both_select (hsel a (by simp)) (hsel b (by simp))).elim

/-- All that decoding a word can do (R83): give the instruction of the one row it selects, or, when it selects none,
IllegalOpcode. -/
theorem decodeWord_cases (op : Word) :
    (∃ r, opcodeMap.filter (fun q => q.selects op) = [r] ∧ decodeWord op = .ok (r.build (fieldsOf op))) ∨
    (opcodeMap.filter (fun q => q.selects op) = [] ∧ decodeWord op = .error (.illegalOpcode op)) := by
  unfold decodeWord
  cases h : opcodeMap.find? (fun q => q.selects op) with
  | some r => exact .inl ⟨r, filter_selects_of_find? h, rfl⟩
  | none => exact .inr ⟨List.filter_eq_nil_iff.2 (List.find?_eq_none.1 h), rfl⟩

end Sys2Proof

namespace Sys2Proof.Machine

/-! ### A STEP by what its fetched word decodes to (R80) -/

variable {s : State} {op : Word}

theorem State.fetchInstr_of_decode_ok {i : Instr} (hf : s.fetch = .ok op) (hd : decodeWord op = .ok i) :
    s.fetchInstr = .ok i := by
  simp only [State.fetchInstr, hf, hd]

theorem State.fetchInstr_of_decode_error {e : DecodeError} (hf : s.fetch = .ok op) (hd : decodeWord op = .error e) :
    s.fetchInstr = .error (.illegalOpcode op) := by
  simp only [State.fetchInstr, hf, hd]

theorem step_of_fetchInstr_ok {i : Instr} (h : s.fetchInstr = .ok i) :
    step s = completeStep (exec i s.beginStep) := by
  simp only [step, h]

end Sys2Proof.Machine

namespace Sys2Proof.Machine

/-- Settles O4: the two cases of `decodeWord_cases`, each with what a STEP that fetches such a word does. -/
theorem dispatchIsTotal : Obligations.DispatchIsTotal := by
  unfold Obligations.DispatchIsTotal
  refine ⟨rfl, fun op => ?_⟩
  obtain ⟨r, hsel, hdec⟩ | ⟨hsel, hdec⟩ := decodeWord_cases op
  · exact .inl ⟨r, hsel, hdec, fun s hf => step_of_fetchInstr_ok (State.fetchInstr_of_decode_ok hf hdec)⟩
  · exact .inr ⟨hsel, hdec, fun s hf => step_eq_fault.2 (.inl (State.fetchInstr_of_decode_error hf hdec))⟩

end Sys2Proof.Machine
end

section
/-! Jumps, returns and the immediate skips (41_control_flow.md): a word of a row with the mask 0xF000 decodes by its
first nibble, and a control transfer of this family writes pc only. -/

namespace Sys2Proof

/-! ### Decoding by the row a word selects (R65) -/

/-- A word that selects a row of the opcode map decodes to that row's instruction: no other row is selected. -/
theorem decodeWord_of_selects {r : Row} {op : Word} (hr : r ∈ opcodeMap) (hsel : r.selects op = true) :
    decodeWord op = .ok (r.build (fieldsOf op)) := by
  have hmem : r ∈ opcodeMap.filter (fun q => q.selects op) := List.mem_filter.2 ⟨hr, hsel⟩
  obtain ⟨q, hfilter, hdec⟩ | ⟨hfilter, -⟩ := decodeWord_cases op
  · rw [hfilter, List.mem_singleton] at hmem
    rw [hdec, hmem]
  · rw [hfilter] at hmem
    exact absurd hmem List.not_mem_nil

/-- The mask 0xF000 keeps P, the first nibble, and clears the rest of the word. -/
theorem append_and_primaryMask (p : Nibble) (rest : Addr) : (p ++ rest : Word) &&& 0xF000 = p ++ 0#12 := by
  have hmask : (0xF000 : Word) = BitVec.allOnes 4 ++ 0#12 := rfl
  rw [hmask]
  exact BitVec.and_append.trans (by rw [BitVec.and_allOnes, BitVec.and_zero])

/-- A row with the mask 0xF000 is selected by the words that begin with its P. -/
theorem decodeWord_of_primary {r : Row} {p : Nibble} (hr : r ∈ opcodeMap) (hmask : r.mask = 0xF000)
    (hpattern : r.pattern = p ++ 0#12) (rest : Addr) :
    decodeWord (p ++ rest) = .ok (r.build (fieldsOf (p ++ rest))) := by
  refine decodeWord_of_selects hr ?_
  rw [Row.selects, hmask, hpattern, beq_iff_eq]
  exact append_and_primaryMask p rest

/-- REGIMM with its fields written one after the other (R61, R62). -/
theorem wordRegImm_eq_append (p : Nibble) (x : RegIdx) (nn : Byte) :
    wordRegImm p x nn = p ++ BitVec.ofNat 4 x.val ++ nn := by
  have hreg : nibbleOfReg x = BitVec.ofNat 4 x.val := BitVec.eq_of_toNat_eq (Nat.mod_eq_of_lt x.isLt).symm
  rw [wordRegImm, hreg]
  exact BitVec.append_assoc.symm

/-- The words of an ADDR row (R62) decode with NNN at its place. -/
theorem decodeWord_wordAddr {r : Row} {p : Nibble} {mk : Addr → Instr} (hr : r ∈ opcodeMap) (hmask : r.mask = 0xF000)
    (hpattern : r.pattern = p ++ 0#12) (hbuild : r.build = fun f => mk f.nnn) (nnn : Addr) :
    decodeWord (wordAddr p nnn) = .ok (mk nnn) := by
  have hrow : decodeWord (wordAddr p nnn) = .ok (r.build (fieldsOf (wordAddr p nnn))) :=
    decodeWord_of_primary hr hmask hpattern nnn
  simpa [hbuild, fieldsOf] using hrow

/-- The words of a REGIMM row (R62) decode with X and NN at their places. -/
theorem decodeWord_wordRegImm {r : Row} {p : Nibble} {mk : RegIdx → Byte → Instr} (hr : r ∈ opcodeMap)
    (hmask : r.mask = 0xF000) (hpattern : r.pattern = p ++ 0#12) (hbuild : r.build = fun f => mk f.x f.nn) (x : RegIdx)
    (nn : Byte) : decodeWord (wordRegImm p x nn) = .ok (mk x nn) := by
  have hrow : decodeWord (wordRegImm p x nn) = .ok (r.build (fieldsOf (wordRegImm p x nn))) :=
    decodeWord_of_primary hr hmask hpattern (nibbleOfReg x ++ nn)
  simpa [hbuild, fieldsOf] using hrow

/-- 1NNN is row 3 of R65. -/
theorem decodeWord_jp : ∀ nnn, decodeWord (wordAddr 0x1 nnn) = .ok (.jp nnn) :=
  decodeWord_wordAddr (r := opcodeMap[2]) (List.getElem_mem _) rfl rfl rfl

/-- 3XNN is row 5 of R65. -/
theorem decodeWord_seImm : ∀ x nn, decodeWord (wordRegImm 0x3 x nn) = .ok (.seImm x nn) :=
  decodeWord_wordRegImm (r := opcodeMap[4]) (List.getElem_mem _) rfl rfl rfl

/-- 4XNN is row 6 of R65. -/
theorem decodeWord_sneImm : ∀ x nn, decodeWord (wordRegImm 0x4 x nn) = .ok (.sneImm x nn) :=
  decodeWord_wordRegImm (r := opcodeMap[5]) (List.getElem_mem _) rfl rfl rfl

end Sys2Proof

namespace Sys2Proof.Machine

open Sys2Proof.Spec

variable (s : State)

/-! ### Transfers that write pc only (R103, R111) -/

/-- Writing pc changes nothing else. -/
theorem onlyRegs_setPc (w : Word) : OnlyRegs [] s (s.setPc w) := by
  simp [OnlyRegs, KeepsRegsExcept, KeepsMemory, KeepsIndex, KeepsStack, KeepsTimers, KeepsDisplay, KeepsKeysAndParams,
    KeepsEntropy]

/-- A skip writes pc only (R103). -/
theorem onlyRegs_skipIf (c : Bool) : OnlyRegs [] s (s.skipIf c) := onlyRegs_setPc s _

/-- The pc of a skip as a number: 4 on when the condition holds, else 2 on, modulo 2^16 (R103). -/
theorem State.skipIf_pc_toNat (c : Bool) : (s.skipIf c).pc.toNat = (s.pc.toNat + if c then 4 else 2) % 2 ^ 16 := by
  rw [State.skipIf_pc, BitVec.toNat_add]
  cases c <;> rfl

/-- The stack read by number, below the 16 entries, is the entry. -/
theorem stackAt_eq_getElem {k : Nat} (h : k < 16) : stackAt s k = s.stack[k] := by
  simp [stackAt, h]

end Sys2Proof.Machine

namespace Sys2Proof.Machine

open Sys2Proof.Spec

/-- Settles O9, by `decodeWord_jp` and the frame of a write to pc. -/
theorem jpSetsPc : Obligations.JpSetsPc := by
  unfold Obligations.JpSetsPc
  refine fun nnn => ⟨decodeWord_jp nnn, fun s => ?_⟩
  exact ⟨s.setPc (addrWord nnn), rfl, addrWord_toNat nnn, onlyRegs_setPc s _⟩

/-- Settles O11, by what a RET that succeeds has done (`exec_ret_eq_next`) and the fault of one on an empty stack. -/
theorem retPopsReturnAddress : Obligations.RetPopsReturnAddress := by
  unfold Obligations.RetPopsReturnAddress
  refine ⟨rfl, fun s => ⟨fun hpos => ?_, exec_ret_of_empty⟩⟩
  have htop : s.sp.val - 1 < 16 := by omega
  refine ⟨_, exec_ret_eq_next.2 ⟨hpos, rfl⟩, (stackAt_eq_getElem s htop).symm, rfl, rfl, ?_⟩
  exact ⟨fun _ _ => rfl, fun _ => rfl, rfl, ⟨rfl, rfl⟩, ⟨rfl, rfl, rfl⟩, ⟨rfl, rfl⟩, rfl, rfl⟩

/-- Settles O14: each skip is `skipIf` of its comparison, which is the comparison of the numbers. -/
theorem immediateSkips : Obligations.ImmediateSkips := by
  unfold Obligations.ImmediateSkips
  intro x nn
  simp only [← wordRegImm_eq_append]
  refine ⟨decodeWord_seImm x nn, decodeWord_sneImm x nn, fun s => ⟨?_, ?_⟩⟩
  · refine ⟨s.skipIf (s.readV x == nn), rfl, ?_, onlyRegs_skipIf s _⟩
    simp only [State.skipIf_pc_toNat, beq_iff_eq, BitVec.toNat_inj]
  · refine ⟨s.skipIf (s.readV x != nn), rfl, ?_, onlyRegs_skipIf s _⟩
    simp only [State.skipIf_pc_toNat, bne_iff_ne, BitVec.toNat_ne_iff_ne]

end Sys2Proof.Machine
end

section
/-! The register writes of the load and ALU family (42_load_alu.md): an instruction that writes one general register and
goes on to the next word changes that register and pc only. -/

namespace Sys2Proof

/-- 7XNN is row 9 of R65. -/
theorem decodeWord_addImm : ∀ x nn, decodeWord (wordRegImm 0x7 x nn) = .ok (.addImm x nn) :=
  decodeWord_wordRegImm (r := opcodeMap[8]) (List.getElem_mem _) rfl rfl rfl

end Sys2Proof

namespace Sys2Proof.Machine

open Sys2Proof.Spec

variable (s : State)

/-- The pc of the next word as a number: 2 on, modulo 2^16 (R86). -/
theorem State.advance_pc_toNat : s.advance.pc.toNat = (s.pc.toNat + 2) % 2 ^ 16 := BitVec.toNat_add _ _

/-- Writing one register and going on to the next word changes nothing else. -/
theorem onlyRegs_writeV_advance (x : RegIdx) (b : Byte) : OnlyRegs [x] s (s.writeV x b).advance := by
  have hregs : KeepsRegsExcept [x] s (s.writeV x b).advance := fun r hr =>
    s.readV_writeV_other b (List.ne_of_not_mem_cons hr)
  exact ⟨hregs, fun _ => rfl, rfl, ⟨rfl, rfl⟩, ⟨rfl, rfl⟩, ⟨rfl, rfl, rfl⟩, ⟨rfl, rfl⟩, rfl, rfl⟩

end Sys2Proof.Machine

namespace Sys2Proof.Machine

open Sys2Proof.Spec

/-- Settles O17: the register read back is `sumByte`, and one register write with the advance is the whole effect. -/
theorem addImmediateWraps : Obligations.AddImmediateWraps := by
  unfold Obligations.AddImmediateWraps
  intro x nn
  rw [← wordRegImm_eq_append]
  refine ⟨decodeWord_addImm x nn, fun s => ⟨(s.writeV x (sumByte (s.readV x) nn)).advance, rfl, ?_, ?_, ?_⟩⟩
  · rw [State.readV_advance, State.readV_writeV_same, sumByte_toNat]
  · rw [State.advance_pc_toNat, State.writeV_pc]
  · exact onlyRegs_writeV_advance s x _

end Sys2Proof.Machine
end

section
/-! The writes of I of the index and memory family (43_index_memory.md): an instruction that writes I and goes on to the
next word changes I and pc only. -/

namespace Sys2Proof

/-- ANNN is row 20 of R65. -/
theorem decodeWord_ldI : ∀ nnn, decodeWord (wordAddr 0xA nnn) = .ok (.ldI nnn) :=
  decodeWord_wordAddr (r := opcodeMap[19]) (List.getElem_mem _) rfl rfl rfl

end Sys2Proof

namespace Sys2Proof.Machine

open Sys2Proof.Spec

/-- Writing I and going on to the next word changes nothing else. -/
theorem onlyIndex_writeIndex_advance (s : State) (w : Word) : OnlyIndex [] s (s.writeIndex w).advance :=
  ⟨fun _ _ => rfl, fun _ => rfl, ⟨rfl, rfl⟩, ⟨rfl, rfl⟩, ⟨rfl, rfl, rfl⟩, ⟨rfl, rfl⟩, rfl, rfl⟩

/-- Settles O22, by `decodeWord_ldI`, the value of an address as a word and the frame of a write to I. -/
theorem loadIndex : Obligations.LoadIndex := by
  unfold Obligations.LoadIndex
  refine fun nnn => ⟨decodeWord_ldI nnn, fun s => ?_⟩
  refine ⟨(s.writeIndex (addrWord nnn)).advance, rfl, ?_, ?_, onlyIndex_writeIndex_advance s _⟩
  · rw [State.advance_index, State.writeIndex_index, addrWord_toNat]
  · rw [State.advance_pc_toNat, State.writeIndex_pc]

end Sys2Proof.Machine
end

section
/-! The timer moves of the timer, key and random family (45_timers_keys_random.md): a FXNN word decodes by its low byte,
a move into a timer writes that timer and pc only, and no instruction reads ST. -/

namespace Sys2Proof

/-! ### Rows selected by P and the low byte (R65) -/

/-- The mask 0xF0FF clears X and keeps the rest of a REGOP word. -/
theorem wordRegImm_and_regOpMask (p : Nibble) (x : RegIdx) (nn : Byte) :
    wordRegImm p x nn &&& 0xF0FF = wordRegImm p 0 nn := by
  have hlow : (nibbleOfReg x ++ nn) &&& (0#4 ++ BitVec.allOnes 8) = nibbleOfReg 0 ++ nn :=
    BitVec.and_append.trans (by rw [BitVec.and_zero, BitVec.and_allOnes]; rfl)
  have hmask : (0xF0FF : Word) = BitVec.allOnes 4 ++ (0#4 ++ BitVec.allOnes 8) := rfl
  rw [hmask]
  exact BitVec.and_append.trans (congrArg₂ (· ++ ·) BitVec.and_allOnes hlow)

/-- The words of a REGOP row (R62), whose low byte is a secondary opcode, decode with X at its place. -/
theorem decodeWord_regOp {r : Row} {p : Nibble} {nn : Byte} {mk : RegIdx → Instr} (hr : r ∈ opcodeMap)
    (hmask : r.mask = 0xF0FF) (hpattern : r.pattern = wordRegImm p 0 nn) (hbuild : r.build = fun f => mk f.x)
    (x : RegIdx) : decodeWord (wordRegImm p x nn) = .ok (mk x) := by
  have hsel : r.selects (wordRegImm p x nn) = true := by
    rw [Row.selects, hmask, hpattern, beq_iff_eq, wordRegImm_and_regOpMask]
  simpa [hbuild, fieldsOf] using decodeWord_of_selects hr hsel

/-- FX07 is row 26 of R65. -/
theorem decodeWord_ldVxDT : ∀ x, decodeWord (wordRegImm 0xF x 0x07) = .ok (.ldVxDT x) :=
  decodeWord_regOp (r := opcodeMap[25]) (List.getElem_mem _) rfl rfl rfl

/-- FX15 is row 28 of R65. -/
theorem decodeWord_ldDTVx : ∀ x, decodeWord (wordRegImm 0xF x 0x15) = .ok (.ldDTVx x) :=
  decodeWord_regOp (r := opcodeMap[27]) (List.getElem_mem _) rfl rfl rfl

/-- FX18 is row 29 of R65. -/
theorem decodeWord_ldSTVx : ∀ x, decodeWord (wordRegImm 0xF x 0x18) = .ok (.ldSTVx x) :=
  decodeWord_regOp (r := opcodeMap[28]) (List.getElem_mem _) rfl rfl rfl

end Sys2Proof

namespace Sys2Proof.Machine

open Sys2Proof.Spec

variable (s : State)

/-! ### The frame of a write to the timers (R172, R173) -/

/-- Everything but pc and the two timers is as before. -/
def OnlyTimers (s t : State) : Prop :=
  KeepsRegsExcept [] s t ∧ KeepsMemory s t ∧ KeepsIndex s t ∧ KeepsStack s t ∧ KeepsDisplay s t ∧
    KeepsKeysAndParams s t ∧ KeepsEntropy s t

/-- Writing the timers and going on to the next word changes nothing else. -/
theorem onlyTimers_advance (dt st : Byte) : OnlyTimers s { s with dt := dt, st := st }.advance :=
  ⟨fun _ _ => rfl, fun _ => rfl, rfl, ⟨rfl, rfl⟩, ⟨rfl, rfl, rfl⟩, ⟨rfl, rfl⟩, rfl, rfl⟩

/-! ### The same state with another ST: every operation that branches or recurses does the same -/

/-- The state with another sound timer. -/
def State.withST (s : State) (st : Byte) : State := { s with st := st }

variable (st : Byte)

theorem State.push_withST (ret : Word) : (s.withST st).push ret = (s.push ret).map (·.withST st) := by
  by_cases h : s.sp.val < 16
  · rw [State.push_eq_some.2 ⟨h, rfl⟩]
    exact State.push_eq_some.2 ⟨h, rfl⟩
  · have hfull : s.sp = 16 := Fin.ext (by have := s.sp.isLt; omega)
    rw [State.push_eq_none.2 hfull]
    exact State.push_eq_none.2 hfull

theorem State.pop_withST : (s.withST st).pop = s.pop.map fun p => (p.1, p.2.withST st) := by
  by_cases h : 0 < s.sp.val
  · rw [State.pop_eq_some.2 ⟨h, rfl, rfl⟩]
    exact State.pop_eq_some.2 ⟨h, rfl, rfl⟩
  · have hempty : s.sp = 0 := Fin.ext (Nat.eq_zero_of_not_pos h)
    rw [State.pop_eq_none.2 hempty]
    exact State.pop_eq_none.2 hempty

theorem State.readBytes_withST (a n : Nat) : (s.withST st).readBytes a n = s.readBytes a n :=
  State.readBytes_congr (s := s) (t := s.withST st) (fun _ => rfl) a n

theorem State.writeBytes_withST (a : Nat) (bs : List Byte) :
    (s.withST st).writeBytes a bs = (s.writeBytes a bs).withST st := by
  induction bs generalizing s a with
  | nil => rfl
  | cons b bs ih => exact ih (s.writeByte a b) (a + 1)

theorem State.lowestKey_withST : (s.withST st).lowestKey = s.lowestKey := rfl

/-- The check of a key number reads the state it starts from, so it commutes with a change of the state reached. -/
theorem mapNext_withKey (f : State → State) (x : RegIdx) (go : Fin 16 → StepOutcome) :
    mapNext f (s.withKey x go) = s.withKey x fun k => mapNext f (go k) := by
  unfold State.withKey
  cases keyNumber (s.readV x) <;> rfl

/-! ### No instruction reads ST (R18) -/

/-- Every instruction but `LD ST, Vx` does the same whatever ST holds, and leaves it. -/
theorem exec_withST_of_not_writesST (i : Instr) (h : writesST i = false) :
    exec i (s.withST st) = mapNext (·.withST st) (exec i s) := by
  cases i with
  | ldSTVx x => cases h
  | call nnn =>
    have hpush : (s.withST st).push ((s.withST st).pc + 2) = _ := s.push_withST st (s.pc + 2)
    simp only [exec, execCall, hpush]
    cases s.push (s.pc + 2) <;> rfl
  | ret =>
    simp only [exec, execRet, State.pop_withST]
    cases s.pop <;> rfl
  | jpV0 nnn =>
    simp only [exec, execJpV0, State.withST]
    cases s.cfg.jumpOffset <;> rfl
  | addI x =>
    simp only [exec, execAddI, indexAddFlag, State.withST]
    cases s.cfg.indexAddVF <;> rfl
  | ldVxK x =>
    simp only [exec, execLdVxK, State.lowestKey_withST]
    cases s.lowestKey <;> rfl
  | skp x =>
    simp only [exec, execSkp, mapNext_withKey]
    rfl
  | sknp x =>
    simp only [exec, execSknp, mapNext_withKey]
    rfl
  | drw x y n =>
    simp only [exec, execDrw, State.readBytes_withST, mapNext_withData]
    rfl
  | ldB x =>
    simp only [exec, execLdB, State.writeBytes_withST, mapNext_withData]
    rfl
  | storeRegs x =>
    simp only [exec, execStoreRegs, State.writeBytes_withST, mapNext_withData]
    rfl
  | loadRegs x =>
    simp only [exec, execLoadRegs, mapNext_withData]
    rfl
  | _ => rfl

/-- Every instruction does the same whatever ST holds; `LD ST, Vx` overwrites it and every other one leaves it. -/
theorem exec_withST (i : Instr) :
    exec i (s.withST st) = mapNext (fun t => if writesST i then t else t.withST st) (exec i s) := by
  cases h : writesST i with
  | false => exact exec_withST_of_not_writesST s st i h
  | true =>
    cases i with
    | ldSTVx x => rfl
    | _ => cases h

end Sys2Proof.Machine

namespace Sys2Proof.Machine

/-- Settles O35: the FX07, FX15 and FX18 rows, one register or timer written with the advance, and `exec_withST`. -/
theorem timerMoves : Obligations.TimerMoves := by
  unfold Obligations.TimerMoves
  intro x
  simp only [← wordRegImm_eq_append]
  refine ⟨decodeWord_ldVxDT x, decodeWord_ldDTVx x, decodeWord_ldSTVx x, fun s => ⟨?_, ?_, ?_, ?_⟩⟩
  · exact ⟨_, rfl, s.readV_writeV_same x s.dt, State.advance_pc_toNat _, onlyRegs_writeV_advance s x s.dt⟩
  · exact ⟨_, rfl, rfl, rfl, State.advance_pc_toNat _, onlyTimers_advance s (s.readV x) s.st⟩
  · exact ⟨_, rfl, rfl, rfl, State.advance_pc_toNat _, onlyTimers_advance s s.dt (s.readV x)⟩
  · exact fun i v => exec_withST s v i

end Sys2Proof.Machine
end

section
/-! The read ports and CLEAR_DIRTY (60_exceptions.md): the host's operations other than STEP and RESET write memory, the
key latch and the dirty bit only, and a STEP sets the dirty bit exactly when it draws or clears. -/

namespace Sys2Proof.Machine

open Sys2Proof.Spec

variable {s t : State} {i : Instr}

/-! ### The dirty bit over an instruction and a STEP (R20) -/

/-- CLS and DRW set the dirty bit; every other instruction keeps it. -/
theorem exec_dirty (h : exec i s = .next t) : t.dirty = (s.dirty || isDisplay i) := by
  cases i with
  | cls =>
    cases h
    simp [isDisplay]
  | drw x y n =>
    obtain ⟨-, r, -, rfl⟩ := exec_drw_eq_next.1 h
    simp [isDisplay]
  | call nnn =>
    obtain ⟨-, rfl⟩ := exec_call_eq_next.1 h
    simp [isDisplay]
  | ret =>
    obtain ⟨-, rfl⟩ := exec_ret_eq_next.1 h
    simp [isDisplay]
  | jpV0 nnn =>
    obtain ⟨-, rfl⟩ := exec_jpV0_eq_next.1 h
    simp [isDisplay]
  | skp x =>
    obtain ⟨k, -, rfl⟩ := exec_skp_eq_next.1 h
    simp [isDisplay]
  | sknp x =>
    obtain ⟨k, -, rfl⟩ := exec_sknp_eq_next.1 h
    simp [isDisplay]
  | ldVxK x =>
    obtain ⟨k, -, rfl⟩ | ⟨-, rfl⟩ := exec_ldVxK_eq_next.1 h <;> simp [isDisplay]
  | addI x =>
    obtain ⟨u, rfl, rfl⟩ := exec_addI_eq_next.1 h
    cases s.cfg.indexAddVF <;> simp [isDisplay]
  | ldB x =>
    obtain ⟨-, rfl⟩ := exec_ldB_eq_next.1 h
    simp [isDisplay]
  | storeRegs x =>
    obtain ⟨-, rfl⟩ := exec_storeRegs_eq_next.1 h
    simp [isDisplay]
  | loadRegs x =>
    obtain ⟨-, rfl⟩ := exec_loadRegs_eq_next.1 h
    simp [isDisplay]
  | _ =>
    cases h
    exact (Bool.or_false _).symm

/-- The start of a STEP and its tick keep the dirty bit, so a STEP writes it as its instruction does. -/
theorem step_dirty (hi : s.fetchInstr = .ok i) (h : step s = .next t) : t.dirty = (s.dirty || isDisplay i) := by
  obtain ⟨j, u, hj, hexec, rfl⟩ := step_eq_next.1 h
  obtain rfl : i = j := Except.ok.inj (hi.symm.trans hj)
  simpa using exec_dirty hexec

/-- The core never clears the dirty bit (R207). -/
theorem step_keeps_dirty_set (h : step s = .next t) (hd : s.dirty = true) : t.dirty = true := by
  obtain ⟨i, -, hi, -, -⟩ := step_eq_next.1 h
  rw [step_dirty hi h, hd, Bool.true_or]

/-! ### What the host writes between STEPs (R203) -/

/-- All the host's operations other than STEP and RESET can write: memory, the key latch and the dirty bit. -/
theorem hostOp_state (o : HostOp) (s : State) (hreset : o ≠ .reset) (hstep : ∀ b, o ≠ .step b) :
    ∃ m keys d, (hostOp o s).2 = { s with mem := m, key := keys, dirty := d } := by
  cases o with
  | reset => exact absurd rfl hreset
  | step rnd => exact absurd rfl (hstep rnd)
  | load rom =>
    obtain ⟨m, he⟩ := hostLoad_state rom s
    exact ⟨m, s.key, s.dirty, he⟩
  | setKey k pressed =>
    obtain ⟨keys, he⟩ := hostSetKey_state k pressed s
    exact ⟨s.mem, keys, s.dirty, he⟩
  | clearDirty => exact ⟨s.mem, s.key, false, rfl⟩
  | readFb | readDirty | readTimers => exact ⟨s.mem, s.key, s.dirty, rfl⟩

/-- Settles O59: each port's answer is its equation, the core's part is `step_keeps_dirty_set`, and the frame of the
host's other operations follows from `hostOp_state`. -/
theorem readPortsHaveNoSideEffect : Obligations.ReadPortsHaveNoSideEffect := by
  unfold Obligations.ReadPortsHaveNoSideEffect
  refine fun s => ⟨rfl, rfl, rfl, rfl, fun t => step_keeps_dirty_set, fun o hreset hstep => ?_⟩
  obtain ⟨m, keys, d, he⟩ := hostOp_state o s hreset hstep
  rw [he]
  exact ⟨rfl, rfl, rfl⟩

end Sys2Proof.Machine
end

section
/-! Memory after LOAD (R224): what an address reads as, whatever memory held before. -/

namespace Sys2Proof.Machine

open Sys2Proof.Spec

/-! ### What no ROM byte covers (R25, R41) -/

theorem Memory.background_of_lt (font : Vector Byte 80) {a : Nat} (h : a < 80) :
    Memory.background font a = font[a] := dif_pos h

theorem Memory.background_of_ge (font : Vector Byte 80) {a : Nat} (h : 80 ≤ a) :
    Memory.background font a = 0 := dif_neg (Nat.not_lt.2 h)

/-- A byte string placed at `a` is read back byte by byte. -/
theorem Memory.read_ofBytes_add (font : Vector Byte 80) (a : Nat) (bs : List Byte) {j : Nat} (h : j < bs.length) :
    Memory.read font (Memory.ofBytes font a bs) (a + j) = bs[j] := by
  rw [Memory.read_ofBytes, dif_pos (by omega)]
  simp only [Nat.add_sub_cancel_left]

/-- Outside the byte string memory reads as its reset contents. -/
theorem Memory.read_ofBytes_outside (font : Vector Byte 80) {a a' : Nat} (bs : List Byte)
    (h : a' < a ∨ a + bs.length ≤ a') :
    Memory.read font (Memory.ofBytes font a bs) a' = Memory.background font a' := by
  rw [Memory.read_ofBytes, dif_neg (by omega)]

/-! ### The two answers of LOAD (R195, R224) -/

theorem hostLoad_of_length_le {rom : List Byte} (s : State) (h : rom.length ≤ 3584) :
    hostLoad rom s = (.done, { s with mem := Memory.ofBytes s.cfg.font 0x200 rom }) :=
  if_pos (decide_eq_true h)

theorem hostLoad_of_length_gt {rom : List Byte} (s : State) (h : rom.length > 3584) :
    hostLoad rom s = (.tooLarge, s) :=
  if_neg (by simpa [romFits] using h)

/-- Settles O55, by LOAD's two answers and, for the one that succeeds, by what the memory it makes reads as inside the
ROM and outside it. -/
theorem loadCopiesRom : Obligations.LoadCopiesRom := by
  unfold Obligations.LoadCopiesRom
  refine fun rom s => ⟨fun hfits => ⟨_, hostLoad_of_length_le s hfits, fun j hj => ?font, fun a hfont hrom => ?gap,
    fun j hj => Memory.read_ofBytes_add s.cfg.font 0x200 rom hj, fun a hend => ?rest⟩, hostLoad_of_length_gt s⟩
  case font =>
    exact (Memory.read_ofBytes_outside s.cfg.font rom (.inl (by omega))).trans (Memory.background_of_lt _ hj)
  case gap =>
    exact (Memory.read_ofBytes_outside s.cfg.font rom (.inl hrom)).trans (Memory.background_of_ge _ hfont)
  case rest =>
    exact (Memory.read_ofBytes_outside s.cfg.font rom (.inr hend)).trans (Memory.background_of_ge _ (by omega))

end Sys2Proof.Machine
end

section
/-! Encoding and decoding in full (R61 to R69): every instruction is decoded back from its word, a row's instruction is
encoded as the word that selected it, and the words that no instruction is encoded as are those R66 lists. -/

namespace Sys2Proof

/-! ### A word as its fields (R61, R62) -/

variable (op : Word)

theorem wordAddr_fieldsOf : wordAddr (fieldsOf op).p (fieldsOf op).nnn = op := by
  unfold wordAddr fieldsOf
  rw [BitVec.extractLsb'_append_extractLsb'_eq_extractLsb' (by omega)]
  exact BitVec.extractLsb'_eq_self

theorem wordRegImm_fieldsOf : wordRegImm (fieldsOf op).p (fieldsOf op).x (fieldsOf op).nn = op := by
  have hnnn : nibbleOfReg (fieldsOf op).x ++ (fieldsOf op).nn = (fieldsOf op).nnn :=
    BitVec.extractLsb'_append_extractLsb'_eq_extractLsb' (by omega)
  exact (congrArg (wordAddr (fieldsOf op).p) hnnn).trans (wordAddr_fieldsOf op)

theorem wordRegReg_fieldsOf : wordRegReg (fieldsOf op).p (fieldsOf op).x (fieldsOf op).y (fieldsOf op).n = op := by
  have hnn : nibbleOfReg (fieldsOf op).y ++ (fieldsOf op).n = (fieldsOf op).nn :=
    BitVec.extractLsb'_append_extractLsb'_eq_extractLsb' (by omega)
  exact (congrArg (wordRegImm (fieldsOf op).p (fieldsOf op).x) hnn).trans (wordRegImm_fieldsOf op)

/-! ### Decoding what the encoder writes (R62, R65) -/

/-- The mask 0xF00F clears X and Y and keeps the rest of a REGREG word. -/
theorem wordRegReg_and_regRegMask (p : Nibble) (x y : RegIdx) (n : Nibble) :
    wordRegReg p x y n &&& 0xF00F = wordRegReg p 0 0 n := by
  have hlow : (nibbleOfReg y ++ n) &&& (0#4 ++ BitVec.allOnes 4) = nibbleOfReg 0 ++ n :=
    BitVec.and_append.trans (by rw [BitVec.and_zero, BitVec.and_allOnes]; rfl)
  have hmid : (nibbleOfReg x ++ (nibbleOfReg y ++ n)) &&& (0#4 ++ (0#4 ++ BitVec.allOnes 4)) =
      nibbleOfReg 0 ++ (nibbleOfReg 0 ++ n) :=
    BitVec.and_append.trans (congrArg₂ (· ++ ·) BitVec.and_zero hlow)
  have hmask : (0xF00F : Word) = BitVec.allOnes 4 ++ (0#4 ++ (0#4 ++ BitVec.allOnes 4)) := rfl
  rw [hmask]
  exact BitVec.and_append.trans (congrArg₂ (· ++ ·) BitVec.and_allOnes hmid)

variable {op} {r : Row} {p n : Nibble} {nn : Byte}

/-- The words of a REGREG row that keeps N (5XYN, 9XYN, DXYN) decode with X, Y and N at their places. -/
theorem decodeWord_wordRegReg {mk : RegIdx → RegIdx → Nibble → Instr} (hr : r ∈ opcodeMap) (hmask : r.mask = 0xF000)
    (hpattern : r.pattern = p ++ 0#12) (hbuild : r.build = fun f => mk f.x f.y f.n) (x y : RegIdx) (n : Nibble) :
    decodeWord (wordRegReg p x y n) = .ok (mk x y n) := by
  have hrow : decodeWord (wordRegReg p x y n) = .ok (r.build (fieldsOf (wordRegReg p x y n))) :=
    decodeWord_of_primary hr hmask hpattern (nibbleOfReg x ++ (nibbleOfReg y ++ n))
  simpa [hbuild, fieldsOf] using hrow

/-- The words of a REGREG row whose N is a secondary opcode (8XYN) decode with X and Y at their places. -/
theorem decodeWord_regRegOp {mk : RegIdx → RegIdx → Instr} (hr : r ∈ opcodeMap) (hmask : r.mask = 0xF00F)
    (hpattern : r.pattern = wordRegReg p 0 0 n) (hbuild : r.build = fun f => mk f.x f.y) (x y : RegIdx) :
    decodeWord (wordRegReg p x y n) = .ok (mk x y) := by
  have hsel : r.selects (wordRegReg p x y n) = true := by
    rw [Row.selects, hmask, hpattern, beq_iff_eq, wordRegReg_and_regRegMask]
  simpa [hbuild, fieldsOf] using decodeWord_of_selects hr hsel

/-- Every instruction is decoded back from its word. -/
theorem decodeWord_encodeWord (i : Instr) : decodeWord (encodeWord i) = .ok i := by
  have hmem {k : Nat} (hk : k < opcodeMap.length) : opcodeMap[k] ∈ opcodeMap := List.getElem_mem hk
  cases i with
  | cls => rfl
  | ret => rfl
  | jp nnn => exact decodeWord_jp nnn
  | call nnn => exact decodeWord_wordAddr (r := opcodeMap[3]) (hmem _) rfl rfl rfl nnn
  | seImm x nn => exact decodeWord_seImm x nn
  | sneImm x nn => exact decodeWord_sneImm x nn
  | seReg x y n => exact decodeWord_wordRegReg (r := opcodeMap[6]) (hmem _) rfl rfl rfl x y n
  | ldImm x nn => exact decodeWord_wordRegImm (r := opcodeMap[7]) (hmem _) rfl rfl rfl x nn
  | addImm x nn => exact decodeWord_addImm x nn
  | ldReg x y => exact decodeWord_regRegOp (r := opcodeMap[9]) (hmem _) rfl rfl rfl x y
  | orReg x y => exact decodeWord_regRegOp (r := opcodeMap[10]) (hmem _) rfl rfl rfl x y
  | andReg x y => exact decodeWord_regRegOp (r := opcodeMap[11]) (hmem _) rfl rfl rfl x y
  | xorReg x y => exact decodeWord_regRegOp (r := opcodeMap[12]) (hmem _) rfl rfl rfl x y
  | addReg x y => exact decodeWord_regRegOp (r := opcodeMap[13]) (hmem _) rfl rfl rfl x y
  | subReg x y => exact decodeWord_regRegOp (r := opcodeMap[14]) (hmem _) rfl rfl rfl x y
  | shr x y => exact decodeWord_regRegOp (r := opcodeMap[15]) (hmem _) rfl rfl rfl x y
  | subnReg x y => exact decodeWord_regRegOp (r := opcodeMap[16]) (hmem _) rfl rfl rfl x y
  | shl x y => exact decodeWord_regRegOp (r := opcodeMap[17]) (hmem _) rfl rfl rfl x y
  | sneReg x y n => exact decodeWord_wordRegReg (r := opcodeMap[18]) (hmem _) rfl rfl rfl x y n
  | ldI nnn => exact decodeWord_ldI nnn
  | jpV0 nnn => exact decodeWord_wordAddr (r := opcodeMap[20]) (hmem _) rfl rfl rfl nnn
  | rnd x nn => exact decodeWord_wordRegImm (r := opcodeMap[21]) (hmem _) rfl rfl rfl x nn
  | drw x y n => exact decodeWord_wordRegReg (r := opcodeMap[22]) (hmem _) rfl rfl rfl x y n
  | skp x => exact decodeWord_regOp (r := opcodeMap[23]) (hmem _) rfl rfl rfl x
  | sknp x => exact decodeWord_regOp (r := opcodeMap[24]) (hmem _) rfl rfl rfl x
  | ldVxDT x => exact decodeWord_ldVxDT x
  | ldVxK x => exact decodeWord_regOp (r := opcodeMap[26]) (hmem _) rfl rfl rfl x
  | ldDTVx x => exact decodeWord_ldDTVx x
  | ldSTVx x => exact decodeWord_ldSTVx x
  | addI x => exact decodeWord_regOp (r := opcodeMap[29]) (hmem _) rfl rfl rfl x
  | ldF x => exact decodeWord_regOp (r := opcodeMap[30]) (hmem _) rfl rfl rfl x
  | ldB x => exact decodeWord_regOp (r := opcodeMap[31]) (hmem _) rfl rfl rfl x
  | storeRegs x => exact decodeWord_regOp (r := opcodeMap[32]) (hmem _) rfl rfl rfl x
  | loadRegs x => exact decodeWord_regOp (r := opcodeMap[33]) (hmem _) rfl rfl rfl x

/-! ### What a word that selects a row holds at the places the row's mask keeps (R65) -/

/-- A word that selects a row with the mask 0xF000 has the row's P. -/
theorem fieldsOf_of_selects_primary (hmask : r.mask = 0xF000) (hpattern : r.pattern = p ++ 0#12)
    (h : r.selects op = true) : (fieldsOf op).p = p := by
  rw [Row.selects, hmask, hpattern, beq_iff_eq, ← wordAddr_fieldsOf op] at h
  have hp : wordAddr (fieldsOf op).p 0 = wordAddr p 0 := (append_and_primaryMask _ _).symm.trans h
  rw [← wordAddr_p (fieldsOf op).p 0, hp, wordAddr_p]

/-- A word that selects a row with the mask 0xF00F has the row's P and N. -/
theorem fieldsOf_of_selects_regReg (hmask : r.mask = 0xF00F) (hpattern : r.pattern = wordRegReg p 0 0 n)
    (h : r.selects op = true) : (fieldsOf op).p = p ∧ (fieldsOf op).n = n := by
  rw [Row.selects, hmask, hpattern, beq_iff_eq, ← wordRegReg_fieldsOf op, wordRegReg_and_regRegMask] at h
  constructor
  · rw [← wordRegReg_p (fieldsOf op).p (fieldsOf op).n 0 0, h, wordRegReg_p]
  · rw [← wordRegReg_n (fieldsOf op).p (fieldsOf op).n 0 0, h, wordRegReg_n]

/-- A word that selects a row with the mask 0xF0FF has the row's P and NN. -/
theorem fieldsOf_of_selects_regOp (hmask : r.mask = 0xF0FF) (hpattern : r.pattern = wordRegImm p 0 nn)
    (h : r.selects op = true) : (fieldsOf op).p = p ∧ (fieldsOf op).nn = nn := by
  rw [Row.selects, hmask, hpattern, beq_iff_eq, ← wordRegImm_fieldsOf op, wordRegImm_and_regOpMask] at h
  constructor
  · rw [← wordRegImm_p (fieldsOf op).p 0 (fieldsOf op).nn, h, wordRegImm_p]
  · rw [← wordRegImm_nn (fieldsOf op).p 0 (fieldsOf op).nn, h, wordRegImm_nn]

/-! ### Encoding what a word decodes to: no bit is dropped -/

/-- The instruction a row builds from a word that selects it is encoded as that word. -/
def Row.Faithful (r : Row) : Prop := ∀ op, r.selects op = true → encodeWord (r.build (fieldsOf op)) = op

/-- CLS and RET: one word each. -/
theorem Row.Faithful.of_exact (hmask : r.mask = 0xFFFF) (henc : ∀ f, encodeWord (r.build f) = r.pattern) :
    r.Faithful := by
  intro op h
  rw [Row.selects, hmask, beq_iff_eq] at h
  rw [henc, ← h]
  exact BitVec.and_allOnes

theorem Row.Faithful.of_addr (hmask : r.mask = 0xF000) (hpattern : r.pattern = p ++ 0#12)
    (henc : ∀ f, encodeWord (r.build f) = wordAddr p f.nnn) : r.Faithful := fun op h => by
  rw [henc, ← fieldsOf_of_selects_primary hmask hpattern h, wordAddr_fieldsOf]

theorem Row.Faithful.of_regImm (hmask : r.mask = 0xF000) (hpattern : r.pattern = p ++ 0#12)
    (henc : ∀ f, encodeWord (r.build f) = wordRegImm p f.x f.nn) : r.Faithful := fun op h => by
  rw [henc, ← fieldsOf_of_selects_primary hmask hpattern h, wordRegImm_fieldsOf]

/-- 5XYN, 9XYN and DXYN: the instruction keeps N. -/
theorem Row.Faithful.of_regReg (hmask : r.mask = 0xF000) (hpattern : r.pattern = p ++ 0#12)
    (henc : ∀ f, encodeWord (r.build f) = wordRegReg p f.x f.y f.n) : r.Faithful := fun op h => by
  rw [henc, ← fieldsOf_of_selects_primary hmask hpattern h, wordRegReg_fieldsOf]

/-- 8XYN: N is a secondary opcode. -/
theorem Row.Faithful.of_regRegOp (hmask : r.mask = 0xF00F) (hpattern : r.pattern = wordRegReg p 0 0 n)
    (henc : ∀ f, encodeWord (r.build f) = wordRegReg p f.x f.y n) : r.Faithful := fun op h => by
  obtain ⟨hp, hn⟩ := fieldsOf_of_selects_regReg hmask hpattern h
  rw [henc, ← hp, ← hn, wordRegReg_fieldsOf]

/-- EXNN and FXNN: NN is a secondary opcode. -/
theorem Row.Faithful.of_regOp (hmask : r.mask = 0xF0FF) (hpattern : r.pattern = wordRegImm p 0 nn)
    (henc : ∀ f, encodeWord (r.build f) = wordRegImm p f.x nn) : r.Faithful := fun op h => by
  obtain ⟨hp, hnn⟩ := fieldsOf_of_selects_regOp hmask hpattern h
  rw [henc, ← hp, ← hnn, wordRegImm_fieldsOf]

theorem rowsControl_faithful : ∀ r ∈ rowsControl, r.Faithful := by
  simp only [rowsControl, List.forall_mem_cons]
  exact ⟨.of_exact rfl fun _ => rfl, .of_exact rfl fun _ => rfl, .of_addr (p := 1) rfl rfl fun _ => rfl,
    .of_addr (p := 2) rfl rfl fun _ => rfl, .of_regImm (p := 3) rfl rfl fun _ => rfl,
    .of_regImm (p := 4) rfl rfl fun _ => rfl, .of_regReg (p := 5) rfl rfl fun _ => rfl, List.forall_mem_nil _⟩

theorem rowsLoadAlu_faithful : ∀ r ∈ rowsLoadAlu, r.Faithful := by
  simp only [rowsLoadAlu, List.forall_mem_cons]
  exact ⟨.of_regImm (p := 6) rfl rfl fun _ => rfl, .of_regImm (p := 7) rfl rfl fun _ => rfl,
    .of_regRegOp (p := 8) (n := 0) rfl rfl fun _ => rfl, .of_regRegOp (p := 8) (n := 1) rfl rfl fun _ => rfl,
    .of_regRegOp (p := 8) (n := 2) rfl rfl fun _ => rfl, .of_regRegOp (p := 8) (n := 3) rfl rfl fun _ => rfl,
    .of_regRegOp (p := 8) (n := 4) rfl rfl fun _ => rfl, .of_regRegOp (p := 8) (n := 5) rfl rfl fun _ => rfl,
    .of_regRegOp (p := 8) (n := 6) rfl rfl fun _ => rfl, .of_regRegOp (p := 8) (n := 7) rfl rfl fun _ => rfl,
    .of_regRegOp (p := 8) (n := 0xE) rfl rfl fun _ => rfl, .of_regReg (p := 9) rfl rfl fun _ => rfl,
    List.forall_mem_nil _⟩

theorem rowsIndexDisplayKeys_faithful : ∀ r ∈ rowsIndexDisplayKeys, r.Faithful := by
  simp only [rowsIndexDisplayKeys, List.forall_mem_cons]
  exact ⟨.of_addr (p := 0xA) rfl rfl fun _ => rfl, .of_addr (p := 0xB) rfl rfl fun _ => rfl,
    .of_regImm (p := 0xC) rfl rfl fun _ => rfl, .of_regReg (p := 0xD) rfl rfl fun _ => rfl,
    .of_regOp (p := 0xE) (nn := 0x9E) rfl rfl fun _ => rfl, .of_regOp (p := 0xE) (nn := 0xA1) rfl rfl fun _ => rfl,
    List.forall_mem_nil _⟩

theorem rowsTimersMemory_faithful : ∀ r ∈ rowsTimersMemory, r.Faithful := by
  simp only [rowsTimersMemory, List.forall_mem_cons]
  exact ⟨.of_regOp (p := 0xF) (nn := 0x07) rfl rfl fun _ => rfl, .of_regOp (p := 0xF) (nn := 0x0A) rfl rfl fun _ => rfl,
    .of_regOp (p := 0xF) (nn := 0x15) rfl rfl fun _ => rfl, .of_regOp (p := 0xF) (nn := 0x18) rfl rfl fun _ => rfl,
    .of_regOp (p := 0xF) (nn := 0x1E) rfl rfl fun _ => rfl, .of_regOp (p := 0xF) (nn := 0x29) rfl rfl fun _ => rfl,
    .of_regOp (p := 0xF) (nn := 0x33) rfl rfl fun _ => rfl, .of_regOp (p := 0xF) (nn := 0x55) rfl rfl fun _ => rfl,
    .of_regOp (p := 0xF) (nn := 0x65) rfl rfl fun _ => rfl, List.forall_mem_nil _⟩

theorem opcodeMap_faithful : ∀ r ∈ opcodeMap, r.Faithful := by
  simp only [opcodeMap, List.forall_mem_append]
  exact ⟨rowsControl_faithful, rowsLoadAlu_faithful, rowsIndexDisplayKeys_faithful, rowsTimersMemory_faithful⟩

/-- Encoding what a word decodes to gives the word back. -/
theorem encodeWord_of_decodeWord {i : Instr} (h : decodeWord op = .ok i) : encodeWord i = op := by
  obtain ⟨r, hfilter, hdec⟩ | ⟨-, hdec⟩ := decodeWord_cases op
  · have hr : r ∈ opcodeMap.filter (fun q => q.selects op) := by rw [hfilter]; exact List.mem_singleton_self r
    obtain ⟨hmem, hsel⟩ := List.mem_filter.1 hr
    rw [← Except.ok.inj (hdec.symm.trans h)]
    exact opcodeMap_faithful r hmem op hsel
  · cases hdec.symm.trans h

/-! ### The words that are no instruction's (R66) -/

/-- No instruction's word is in the list of R66. -/
theorem illegalWord_encodeWord (i : Instr) : illegalWord (encodeWord i) = false := by
  cases i with
  | cls => exact Laws.EncodesLegally.cls
  | ret => exact Laws.EncodesLegally.ret
  | jp nnn => exact Laws.EncodesLegally.jp nnn
  | call nnn => exact Laws.EncodesLegally.call nnn
  | seImm x nn => exact Laws.EncodesLegally.seImm x nn
  | sneImm x nn => exact Laws.EncodesLegally.sneImm x nn
  | seReg x y n => exact Laws.EncodesLegally.seReg x y n
  | ldImm x nn => exact Laws.EncodesLegally.ldImm x nn
  | addImm x nn => exact Laws.EncodesLegally.addImm x nn
  | ldReg x y => exact Laws.EncodesLegally.ldReg x y
  | orReg x y => exact Laws.EncodesLegally.orReg x y
  | andReg x y => exact Laws.EncodesLegally.andReg x y
  | xorReg x y => exact Laws.EncodesLegally.xorReg x y
  | addReg x y => exact Laws.EncodesLegally.addReg x y
  | subReg x y => exact Laws.EncodesLegally.subReg x y
  | shr x y => exact Laws.EncodesLegally.shr x y
  | subnReg x y => exact Laws.EncodesLegally.subnReg x y
  | shl x y => exact Laws.EncodesLegally.shl x y
  | sneReg x y n => exact Laws.EncodesLegally.sneReg x y n
  | ldI nnn => exact Laws.EncodesLegally.ldI nnn
  | jpV0 nnn => exact Laws.EncodesLegally.jpV0 nnn
  | rnd x nn => exact Laws.EncodesLegally.rnd x nn
  | drw x y n => exact Laws.EncodesLegally.drw x y n
  | skp x => exact Laws.EncodesLegally.skp x
  | sknp x => exact Laws.EncodesLegally.sknp x
  | ldVxDT x => exact Laws.EncodesLegally.ldVxDT x
  | ldVxK x => exact Laws.EncodesLegally.ldVxK x
  | ldDTVx x => exact Laws.EncodesLegally.ldDTVx x
  | ldSTVx x => exact Laws.EncodesLegally.ldSTVx x
  | addI x => exact Laws.EncodesLegally.addI x
  | ldF x => exact Laws.EncodesLegally.ldF x
  | ldB x => exact Laws.EncodesLegally.ldB x
  | storeRegs x => exact Laws.EncodesLegally.storeRegs x
  | loadRegs x => exact Laws.EncodesLegally.loadRegs x

/-- What R66's list leaves under each of the four first nibbles it speaks of. -/
theorem legalWord_fields (h : illegalWord op = false) :
    ((fieldsOf op).p = 0x0 → op = 0x00E0 ∨ op = 0x00EE) ∧
    ((fieldsOf op).p = 0x8 → (fieldsOf op).n ∉ ([0x8, 0x9, 0xA, 0xB, 0xC, 0xD, 0xF] : List Nibble)) ∧
    ((fieldsOf op).p = 0xE → (fieldsOf op).nn ∈ ([0x9E, 0xA1] : List Byte)) ∧
    ((fieldsOf op).p = 0xF →
      (fieldsOf op).nn ∈ ([0x07, 0x0A, 0x15, 0x18, 0x1E, 0x29, 0x33, 0x55, 0x65] : List Byte)) := by
  simp only [illegalWord, Bool.or_eq_false_iff, Bool.and_eq_false_imp, beq_iff_eq, Bool.not_eq_false',
    Bool.or_eq_true, List.contains_eq_mem, decide_eq_false_iff_not, decide_eq_true_eq] at h
  obtain ⟨⟨⟨h0, h8⟩, hE⟩, hF⟩ := h
  exact ⟨h0, h8, hE, hF⟩

theorem nibble_cases (p : Nibble) : p = 0x0 ∨ p = 0x1 ∨ p = 0x2 ∨ p = 0x3 ∨ p = 0x4 ∨ p = 0x5 ∨ p = 0x6 ∨ p = 0x7 ∨
    p = 0x8 ∨ p = 0x9 ∨ p = 0xA ∨ p = 0xB ∨ p = 0xC ∨ p = 0xD ∨ p = 0xE ∨ p = 0xF := by
  revert p
  decide

theorem wordAddr_eq_of_p (hp : (fieldsOf op).p = p) : wordAddr p (fieldsOf op).nnn = op := hp ▸ wordAddr_fieldsOf op

theorem wordRegImm_eq_of_p (hp : (fieldsOf op).p = p) : wordRegImm p (fieldsOf op).x (fieldsOf op).nn = op :=
  hp ▸ wordRegImm_fieldsOf op

theorem wordRegReg_eq_of_p (hp : (fieldsOf op).p = p) :
    wordRegReg p (fieldsOf op).x (fieldsOf op).y (fieldsOf op).n = op := hp ▸ wordRegReg_fieldsOf op

theorem wordRegReg_eq_of_p_n (hp : (fieldsOf op).p = p) (hn : (fieldsOf op).n = n) :
    wordRegReg p (fieldsOf op).x (fieldsOf op).y n = op := hn ▸ wordRegReg_eq_of_p hp

theorem wordRegImm_eq_of_p_nn (hp : (fieldsOf op).p = p) (hnn : (fieldsOf op).nn = nn) :
    wordRegImm p (fieldsOf op).x nn = op := hnn ▸ wordRegImm_eq_of_p hp

/-- The nine words 8XYN that R66 does not list. -/
theorem exists_encodeWord_of_p8 (hp : (fieldsOf op).p = 0x8)
    (hn : (fieldsOf op).n ∉ ([0x8, 0x9, 0xA, 0xB, 0xC, 0xD, 0xF] : List Nibble)) : ∃ i, encodeWord i = op := by
  have hcases : ∀ n : Nibble, n ∉ ([0x8, 0x9, 0xA, 0xB, 0xC, 0xD, 0xF] : List Nibble) →
      n = 0x0 ∨ n = 0x1 ∨ n = 0x2 ∨ n = 0x3 ∨ n = 0x4 ∨ n = 0x5 ∨ n = 0x6 ∨ n = 0x7 ∨ n = 0xE := by decide
  rcases hcases _ hn with hn | hn | hn | hn | hn | hn | hn | hn | hn
  · exact ⟨.ldReg _ _, wordRegReg_eq_of_p_n hp hn⟩
  · exact ⟨.orReg _ _, wordRegReg_eq_of_p_n hp hn⟩
  · exact ⟨.andReg _ _, wordRegReg_eq_of_p_n hp hn⟩
  · exact ⟨.xorReg _ _, wordRegReg_eq_of_p_n hp hn⟩
  · exact ⟨.addReg _ _, wordRegReg_eq_of_p_n hp hn⟩
  · exact ⟨.subReg _ _, wordRegReg_eq_of_p_n hp hn⟩
  · exact ⟨.shr _ _, wordRegReg_eq_of_p_n hp hn⟩
  · exact ⟨.subnReg _ _, wordRegReg_eq_of_p_n hp hn⟩
  · exact ⟨.shl _ _, wordRegReg_eq_of_p_n hp hn⟩

/-- The nine words FXNN that R66 does not list. -/
theorem exists_encodeWord_of_pF (hp : (fieldsOf op).p = 0xF)
    (hnn : (fieldsOf op).nn ∈ ([0x07, 0x0A, 0x15, 0x18, 0x1E, 0x29, 0x33, 0x55, 0x65] : List Byte)) :
    ∃ i, encodeWord i = op := by
  simp only [List.mem_cons, List.not_mem_nil, or_false] at hnn
  rcases hnn with hnn | hnn | hnn | hnn | hnn | hnn | hnn | hnn | hnn
  · exact ⟨.ldVxDT _, wordRegImm_eq_of_p_nn hp hnn⟩
  · exact ⟨.ldVxK _, wordRegImm_eq_of_p_nn hp hnn⟩
  · exact ⟨.ldDTVx _, wordRegImm_eq_of_p_nn hp hnn⟩
  · exact ⟨.ldSTVx _, wordRegImm_eq_of_p_nn hp hnn⟩
  · exact ⟨.addI _, wordRegImm_eq_of_p_nn hp hnn⟩
  · exact ⟨.ldF _, wordRegImm_eq_of_p_nn hp hnn⟩
  · exact ⟨.ldB _, wordRegImm_eq_of_p_nn hp hnn⟩
  · exact ⟨.storeRegs _, wordRegImm_eq_of_p_nn hp hnn⟩
  · exact ⟨.loadRegs _, wordRegImm_eq_of_p_nn hp hnn⟩

/-- Every word R66 does not list is an instruction's: a case per first nibble. -/
theorem exists_encodeWord_of_legal (h : illegalWord op = false) : ∃ i, encodeWord i = op := by
  obtain ⟨h0, h8, hE, hF⟩ := legalWord_fields h
  rcases nibble_cases (fieldsOf op).p with
    hp | hp | hp | hp | hp | hp | hp | hp | hp | hp | hp | hp | hp | hp | hp | hp
  · obtain rfl | rfl := h0 hp
    · exact ⟨.cls, rfl⟩
    · exact ⟨.ret, rfl⟩
  · exact ⟨.jp _, wordAddr_eq_of_p hp⟩
  · exact ⟨.call _, wordAddr_eq_of_p hp⟩
  · exact ⟨.seImm _ _, wordRegImm_eq_of_p hp⟩
  · exact ⟨.sneImm _ _, wordRegImm_eq_of_p hp⟩
  · exact ⟨.seReg _ _ _, wordRegReg_eq_of_p hp⟩
  · exact ⟨.ldImm _ _, wordRegImm_eq_of_p hp⟩
  · exact ⟨.addImm _ _, wordRegImm_eq_of_p hp⟩
  · exact exists_encodeWord_of_p8 hp (h8 hp)
  · exact ⟨.sneReg _ _ _, wordRegReg_eq_of_p hp⟩
  · exact ⟨.ldI _, wordAddr_eq_of_p hp⟩
  · exact ⟨.jpV0 _, wordAddr_eq_of_p hp⟩
  · exact ⟨.rnd _ _, wordRegImm_eq_of_p hp⟩
  · exact ⟨.drw _ _ _, wordRegReg_eq_of_p hp⟩
  · obtain hnn | hnn : (fieldsOf op).nn = 0x9E ∨ (fieldsOf op).nn = 0xA1 := by simpa using hE hp
    · exact ⟨.skp _, wordRegImm_eq_of_p_nn hp hnn⟩
    · exact ⟨.sknp _, wordRegImm_eq_of_p_nn hp hnn⟩
  · exact exists_encodeWord_of_pF hp (hF hp)

/-- All that decoding a word can do, by R66's list: IllegalOpcode for a word it lists, and otherwise the instruction
whose word it is. -/
theorem decodeWord_by_list (op : Word) :
    (illegalWord op = true ∧ decodeWord op = .error (.illegalOpcode op)) ∨
    (illegalWord op = false ∧ ∃ i, decodeWord op = .ok i) := by
  cases h : illegalWord op with
  | false =>
    obtain ⟨i, rfl⟩ := exists_encodeWord_of_legal h
    exact .inr ⟨rfl, i, decodeWord_encodeWord i⟩
  | true =>
    obtain ⟨r, -, hdec⟩ | ⟨-, hdec⟩ := decodeWord_cases op
    · have hlegal := illegalWord_encodeWord (r.build (fieldsOf op))
      rw [encodeWord_of_decodeWord hdec, h] at hlegal
      cases hlegal
    · exact .inl ⟨rfl, hdec⟩

end Sys2Proof

namespace Sys2Proof

/-- Settles O2: the two bytes put together are the instruction's word, which `decodeWord_encodeWord` decodes. -/
theorem decodeOfEncodeIsInstruction : Obligations.DecodeOfEncodeIsInstruction := by
  unfold Obligations.DecodeOfEncodeIsInstruction
  intro i rest
  have hword := decode_word (encodeWord i) rest
  rw [decodeWord_encodeWord] at hword
  exact hword

/-- Settles O3, by `encodeWord_of_decodeWord`: each row builds an instruction that is encoded as the word selected. -/
theorem encodeOfDecodeIsWord : Obligations.EncodeOfDecodeIsWord := fun _ _ h => encodeWord_of_decodeWord h

end Sys2Proof
end

section
/-! The frame of every instruction: which state each leaves as it was (10_state.md). -/

namespace Sys2Proof.Machine

open Sys2Proof.Spec

variable {s t : State} {i : Instr}

/-- What an instruction that succeeds leaves as it was, but for the instructions whose work it is to write it. -/
structure ExecFrame (i : Instr) (s t : State) : Prop where
  mem : t.mem = s.mem ∨ ∃ x, i = .ldB x ∨ i = .storeRegs x
  fb : t.fb = s.fb ∨ isDisplay i = true
  out : t.out = ⟨s.out.displayDirty || isDisplay i, s.out.soundStopped⟩
  index : t.index = s.index ∨ (∃ nnn, i = .ldI nnn) ∨ ∃ x, i = .addI x ∨ i = .ldF x
  dt : t.dt = s.dt ∨ ∃ x, i = .ldDTVx x
  st : t.st = s.st ∨ ∃ x, i = .ldSTVx x
  entropy : (t.entropy = s.entropy ∧ t.draws = s.draws) ∨ ∃ x nn, i = .rnd x nn

/-- An instruction that changes the registers, the stack and pc alone. -/
theorem ExecFrame.of_control (hi : isDisplay i = false)
    (h : t = { s with v := t.v, stack := t.stack, sp := t.sp, pc := t.pc }) : ExecFrame i s t := by
  rw [h]
  constructor <;> simp [hi]

theorem exec_frame (h : exec i s = .next t) : ExecFrame i s t := by
  cases i with
  | cls | ldI nnn | ldF x | ldDTVx x | ldSTVx x | rnd x nn =>
    cases h
    constructor <;> simp [isDisplay]
  | drw x y n =>
    obtain ⟨-, r, -, rfl⟩ := exec_drw_eq_next.1 h
    constructor <;> simp [isDisplay]
  | addI x =>
    obtain ⟨u, rfl, rfl⟩ := exec_addI_eq_next.1 h
    cases s.cfg.indexAddVF <;> constructor <;> simp [isDisplay]
  | ldB x =>
    obtain ⟨-, rfl⟩ := exec_ldB_eq_next.1 h
    constructor <;> simp [isDisplay]
  | storeRegs x =>
    obtain ⟨-, rfl⟩ := exec_storeRegs_eq_next.1 h
    constructor <;> simp [isDisplay]
  | call nnn =>
    obtain ⟨-, rfl⟩ := exec_call_eq_next.1 h
    exact .of_control rfl rfl
  | ret =>
    obtain ⟨-, rfl⟩ := exec_ret_eq_next.1 h
    exact .of_control rfl rfl
  | jpV0 nnn =>
    obtain ⟨-, rfl⟩ := exec_jpV0_eq_next.1 h
    exact .of_control rfl rfl
  | skp x =>
    obtain ⟨k, -, rfl⟩ := exec_skp_eq_next.1 h
    exact .of_control rfl rfl
  | sknp x =>
    obtain ⟨k, -, rfl⟩ := exec_sknp_eq_next.1 h
    exact .of_control rfl rfl
  | ldVxK x =>
    obtain ⟨k, -, rfl⟩ | ⟨-, rfl⟩ := exec_ldVxK_eq_next.1 h <;> exact .of_control rfl rfl
  | loadRegs x =>
    obtain ⟨-, rfl⟩ := exec_loadRegs_eq_next.1 h
    exact .of_control rfl rfl
  | _ =>
    cases h
    exact .of_control rfl rfl

/-- Settles O45, by `exec_frame`; the display's part is one condition on three fields. -/
theorem writersOfEachState : Obligations.WritersOfEachState := by
  unfold Obligations.WritersOfEachState
  intro i s t h
  obtain ⟨hmem, hfb, hout, hindex, hdt, hst, -⟩ := exec_frame h
  obtain ⟨hkey, hcfg⟩ := exec_keepsKeysAndParams h
  refine ⟨hmem.resolve_left, ?_, hindex.resolve_left, hdt.resolve_left, hst.resolve_left, hcfg, hkey⟩
  have hdirty := exec_dirty h
  cases hd : isDisplay i with
  | true => exact fun _ => rfl
  | false =>
    simp only [hd, Bool.or_false, Bool.false_eq_true, or_false] at hdirty hout hfb
    simp [hdirty, hout, hfb]

end Sys2Proof.Machine
end

section
/-! The faults and refusals (60_exceptions.md): those of the execute stage, instruction by instruction, and from them
those of a STEP, which read nothing but pc, the fetched word, sp, I and the registers. -/

namespace Sys2Proof.Machine

open Sys2Proof.Spec

variable {s t : State} {i : Instr} {x y : RegIdx} {f : Fault}

/-! ### The faults and refusals of the execute stage (R190, R198) -/

theorem State.withData_eq_fault {n : Nat} {u : State} :
    s.withData n (.next u) = .fault f ↔ (if 0 < n ∧ s.index.toNat + n - 1 > 0xFFF then
      some (Fault.addressOutOfRange (.data s.index n)) else none) = some f := by
  obtain ⟨h, he⟩ | ⟨h, he⟩ := s.withData_cases n (.next u)
  · rw [he, if_neg (by omega)]
    simp
  · rw [he, if_pos (by omega)]
    simp

theorem State.withKey_eq_fault {go : Fin 16 → State} :
    s.withKey x (fun k => .next (go k)) = .fault f ↔
      (if (s.readV x).toNat > 15 then some (Fault.addressOutOfRange (.key (s.readV x))) else none) = some f := by
  obtain ⟨k, hk, he⟩ | ⟨h, he⟩ := s.withKey_cases x (fun k => .next (go k))
  · rw [he, if_neg (by omega)]
    simp
  · rw [he, if_pos h]
    simp

theorem exec_call_eq_fault {nnn : Addr} :
    exec (.call nnn) s = .fault f ↔ (if s.sp.val = 16 then some (Fault.stackOverflow s.pc) else none) = some f := by
  by_cases h : s.sp.val = 16
  · rw [exec_call_of_full nnn h, if_pos h]
    simp
  · rw [exec_call_eq_next.2 ⟨by omega, rfl⟩, if_neg h]
    simp

theorem exec_ret_eq_fault :
    exec .ret s = .fault f ↔ (if s.sp.val = 0 then some (Fault.stackUnderflow s.pc) else none) = some f := by
  by_cases h : s.sp.val = 0
  · rw [exec_ret_of_empty h, if_pos h]
    simp
  · rw [exec_ret_eq_next.2 ⟨by omega, rfl⟩, if_neg h]
    simp

/-- An instruction faults exactly as `execFault` says. -/
theorem exec_eq_fault : exec i s = .fault f ↔ execFault i s = some f := by
  cases i with
  | call nnn => exact exec_call_eq_fault
  | ret => exact exec_ret_eq_fault
  | skp x => exact State.withKey_eq_fault
  | sknp x => exact State.withKey_eq_fault
  | drw x y n => exact State.withData_eq_fault
  | ldB x => exact State.withData_eq_fault
  | storeRegs x => exact State.withData_eq_fault
  | loadRegs x => exact State.withData_eq_fault
  | jpV0 nnn =>
    simp only [exec, execJpV0]
    cases s.cfg.jumpOffset <;> simp [execFault, dataBytes]
  | ldVxK x =>
    simp only [exec, execLdVxK]
    cases s.lowestKey <;> simp [execFault, dataBytes]
  | _ => exact iff_of_false (fun h => by cases h) (by simp [execFault, dataBytes])

/-- `JP V0, NNN` is refused where JUMP_OFFSET has no meaning (R109, D7). -/
theorem exec_jpV0_of_undefined {nnn : Addr} (h : s.cfg.jumpOffset = .undefinedSetting) :
    exec (.jpV0 nnn) s = .refused .jumpOffsetUndefined := by
  simp only [exec, execJpV0, h]

theorem State.withData_ne_refused {n : Nat} {u : State} {r : Refusal} : s.withData n (.next u) ≠ .refused r := by
  obtain ⟨-, he⟩ | ⟨-, he⟩ := s.withData_cases n (.next u) <;> simp [he]

theorem State.withKey_ne_refused {go : Fin 16 → State} {r : Refusal} :
    s.withKey x (fun k => .next (go k)) ≠ .refused r := by
  obtain ⟨k, -, he⟩ | ⟨-, he⟩ := s.withKey_cases x (fun k => .next (go k)) <;> simp [he]

/-- Nothing else is refused. -/
theorem exec_eq_refused {r : Refusal} (h : exec i s = .refused r) :
    r = .jumpOffsetUndefined ∧ s.cfg.jumpOffset = .undefinedSetting ∧ ∃ nnn, i = .jpV0 nnn := by
  cases i with
  | jpV0 nnn =>
    cases hj : s.cfg.jumpOffset with
    | v0Exact => cases (exec_jpV0_eq_next.2 ⟨hj, rfl⟩).symm.trans h
    | undefinedSetting =>
      cases (exec_jpV0_of_undefined hj).symm.trans h
      exact ⟨rfl, rfl, nnn, rfl⟩
  | call nnn =>
    by_cases hs : s.sp.val = 16
    · cases (exec_call_of_full nnn hs).symm.trans h
    · cases (exec_call_eq_next.2 ⟨by omega, rfl⟩).symm.trans h
  | ret =>
    by_cases hs : s.sp.val = 0
    · cases (exec_ret_of_empty hs).symm.trans h
    · cases (exec_ret_eq_next.2 ⟨by omega, rfl⟩).symm.trans h
  | ldVxK x =>
    simp only [exec, execLdVxK] at h
    cases hk : s.lowestKey <;> simp [hk] at h
  | skp x => exact absurd h State.withKey_ne_refused
  | sknp x => exact absurd h State.withKey_ne_refused
  | drw x y n => exact absurd h State.withData_ne_refused
  | ldB x => exact absurd h State.withData_ne_refused
  | storeRegs x => exact absurd h State.withData_ne_refused
  | loadRegs x => exact absurd h State.withData_ne_refused
  | _ => cases h

/-! ### The faults of a STEP (R198) -/

/-- No instruction raises IllegalOpcode: dispatch does. -/
theorem execFault_ne_illegalOpcode {op : Word} : execFault i s ≠ some (.illegalOpcode op) := by
  cases i <;> simp [execFault]

/-- A fetch, by R44, and the dispatch of the word fetched, by R66's list. -/
theorem State.fetchInstr_eq_error :
    s.fetchInstr = .error f ↔ s.fetch = .error f ∨
      ∃ op, s.fetch = .ok op ∧ illegalWord op = true ∧ f = .illegalOpcode op := by
  unfold State.fetchInstr
  cases hf : s.fetch with
  | error g => simp
  | ok op =>
    obtain ⟨hill, hdec⟩ | ⟨hleg, i, hdec⟩ := decodeWord_by_list op
    · simp [hdec, hill, eq_comm (a := f)]
    · simp [hdec, hleg]

theorem State.fetchInstr_eq_ok :
    s.fetchInstr = .ok i ↔ ∃ op, s.fetch = .ok op ∧ decodeWord op = .ok i := by
  unfold State.fetchInstr
  cases hf : s.fetch with
  | error g => simp
  | ok op => cases hdec : decodeWord op <;> simp [hdec]

/-- A STEP faults at the fetch, at the word fetched, or in its instruction, with that one fault (R198). -/
theorem step_eq_fault_iff :
    step s = .fault f ↔ s.fetch = .error f ∨
      ∃ op, s.fetch = .ok op ∧ ((illegalWord op = true ∧ f = .illegalOpcode op) ∨
        ∃ i, decodeWord op = .ok i ∧ execFault i s = some f) := by
  have hbegin : ∀ i, execFault i s.beginStep = execFault i s := fun _ => rfl
  simp only [step_eq_fault, exec_eq_fault, hbegin, State.fetchInstr_eq_error, State.fetchInstr_eq_ok]
  constructor
  · rintro ((h | ⟨op, hf, h⟩) | ⟨i, ⟨op, hf, hdec⟩, h⟩)
    · exact .inl h
    · exact .inr ⟨op, hf, .inl h⟩
    · exact .inr ⟨op, hf, .inr ⟨i, hdec, h⟩⟩
  · rintro (h | ⟨op, hf, h | ⟨i, hdec, h⟩⟩)
    · exact .inl (.inl h)
    · exact .inl (.inr ⟨op, hf, h⟩)
    · exact .inr ⟨i, ⟨op, hf, hdec⟩, h⟩

/-- Settles O5: among the faults of a STEP (`step_eq_fault_iff`) only dispatch's is IllegalOpcode. -/
theorem illegalOpcodeExactlyForListedWords : Obligations.IllegalOpcodeExactlyForListedWords := by
  unfold Obligations.IllegalOpcodeExactlyForListedWords
  refine ⟨fun s op hf => ?_, fun s f op hf h => ?_⟩
  · simp [step_eq_fault_iff, hf, execFault_ne_illegalOpcode]
  · obtain ⟨-, hf'⟩ | ⟨-, hf'⟩ := s.fetch_cases <;> simp [step_eq_fault_iff, hf'] at h hf

/-- Settles O40: `step_eq_fault_iff` with the two cases of the fetch. -/
theorem stepFaultsExactlyWhen : Obligations.StepFaultsExactlyWhen := by
  unfold Obligations.StepFaultsExactlyWhen
  intro s f
  rw [step_eq_fault_iff]
  obtain ⟨hpc, hf⟩ | ⟨hpc, hf⟩ := s.fetch_cases
  · simp [hf, hpc, eq_comm (b := f), Nat.not_lt.2 hpc]
  · simp [hf, hpc, Nat.not_le.2 hpc]

/-- Settles O41, by the one refusal of the execute stage, `exec_eq_refused`. -/
theorem stepNeverRefuses : Obligations.StepNeverRefuses := by
  unfold Obligations.StepNeverRefuses
  refine ⟨fun s hs => ?_, fun i s r h => ⟨(exec_eq_refused h).1, (exec_eq_refused h).2.2⟩⟩
  cases hi : s.fetchInstr with
  | error f => exact .inr ⟨f, step_eq_fault.2 (.inl hi)⟩
  | ok i =>
    cases hexec : exec i s.beginStep with
    | next u => exact .inl ⟨u.tick, step_eq_next.2 ⟨i, u, hi, hexec, rfl⟩⟩
    | fault f => exact .inr ⟨f, step_eq_fault.2 (.inr ⟨i, hi, hexec⟩)⟩
    | refused r =>
      have hundef : s.cfg.jumpOffset = .undefinedSetting := (exec_eq_refused hexec).2.1
      cases hs.symm.trans hundef

theorem hostStep_of_fault {rnd : Byte} (h : step { s with entropy := rnd :: s.entropy } = .fault f) :
    hostStep rnd s = (.fault f, s) := by
  simp only [hostStep, h]

/-- Settles O42: what `step_eq_fault_iff` says of a fault reads neither the entropy nor the keys nor the dirty bit. -/
theorem faultIsPreciseAndRepeats : Obligations.FaultIsPreciseAndRepeats := by
  unfold Obligations.FaultIsPreciseAndRepeats
  intro s t rnd rnd' f keys d h
  obtain ⟨u, -, he⟩ | ⟨g, hfault, he⟩ | ⟨r, -, he⟩ := hostStep_cases rnd s
  · cases he.symm.trans h
  · cases he.symm.trans h
    have hwhy := step_eq_fault_iff.1 hfault
    have hagain : step { s with key := keys, dirty := d, entropy := rnd' :: s.entropy } = .fault f :=
      step_eq_fault_iff.2 hwhy
    exact ⟨rfl, hostStep_of_fault hagain⟩
  · cases he.symm.trans h

end Sys2Proof.Machine
end

section
/-! The pc, the tick and the result of a STEP (40_step_cycle.md). -/

namespace Sys2Proof.Machine

open Sys2Proof.Spec

variable {s t : State} {i : Instr}

/-! ### The pc an instruction leaves (R86) -/

/-- The key latch read by number, below its 16 keys, is the key. -/
theorem keyAt_eq_keyDown (s : State) (k : Fin 16) : keyAt s k.val = s.keyDown k := by
  simp [keyAt, State.keyDown, Vector.get_eq_getElem]

theorem exists_keyAt_iff : (∃ k < 16, keyAt s k = true) ↔ s.lowestKey ≠ none := by
  rw [ne_eq, State.lowestKey_eq_none]
  constructor
  · rintro ⟨k, hk, h⟩ hnone
    cases h.symm.trans ((keyAt_eq_keyDown s ⟨k, hk⟩).trans (hnone ⟨k, hk⟩))
  · intro h
    obtain ⟨k, hk⟩ := not_forall.1 h
    exact ⟨k.val, k.isLt, by simpa [keyAt_eq_keyDown] using hk⟩

theorem addrWord_add_byteWord_toNat (nnn : Addr) (b : Byte) :
    (addrWord nnn + byteWord b).toNat = (nnn.toNat + b.toNat) % 2 ^ 16 := by
  rw [BitVec.toNat_add, addrWord_toNat, byteWord_toNat]

/-- The pc an instruction leaves is that of the table of R86. -/
theorem exec_pc (h : exec i s = .next t) : t.pc.toNat = pcAfter i s := by
  cases i with
  | jp nnn =>
    cases h
    exact addrWord_toNat nnn
  | call nnn =>
    obtain ⟨-, rfl⟩ := exec_call_eq_next.1 h
    exact addrWord_toNat nnn
  | ret =>
    obtain ⟨hpos, rfl⟩ := exec_ret_eq_next.1 h
    exact congrArg BitVec.toNat (stackAt_eq_getElem s (by omega)).symm
  | jpV0 nnn =>
    obtain ⟨-, rfl⟩ := exec_jpV0_eq_next.1 h
    exact addrWord_add_byteWord_toNat nnn _
  | seImm x nn | sneImm x nn | seReg x y n | sneReg x y n =>
    cases h
    rw [State.skipIf_pc_toNat]
    simp [pcAfter]
  | skp x =>
    obtain ⟨k, hk, rfl⟩ := exec_skp_eq_next.1 h
    rw [State.skipIf_pc_toNat, ← keyAt_eq_keyDown, hk]
    rfl
  | sknp x =>
    obtain ⟨k, hk, rfl⟩ := exec_sknp_eq_next.1 h
    rw [State.skipIf_pc_toNat, ← keyAt_eq_keyDown, hk]
    simp [pcAfter]
  | ldVxK x =>
    obtain ⟨k, hk, rfl⟩ | ⟨hk, rfl⟩ := exec_ldVxK_eq_next.1 h
    · rw [pcAfter, if_pos (exists_keyAt_iff.2 (by simp [hk]))]
      exact State.advance_pc_toNat _
    · rw [pcAfter, if_neg (fun hex => exists_keyAt_iff.1 hex hk)]
  | addI x =>
    obtain ⟨u, rfl, rfl⟩ := exec_addI_eq_next.1 h
    rw [State.advance_pc_toNat]
    cases s.cfg.indexAddVF <;> rfl
  | ldB x =>
    obtain ⟨-, rfl⟩ := exec_ldB_eq_next.1 h
    rw [State.advance_pc_toNat, State.writeBytes_pc]
    rfl
  | storeRegs x =>
    obtain ⟨-, rfl⟩ := exec_storeRegs_eq_next.1 h
    rw [State.advance_pc_toNat, State.writeBytes_pc]
    rfl
  | loadRegs x =>
    obtain ⟨-, rfl⟩ := exec_loadRegs_eq_next.1 h
    exact State.advance_pc_toNat _
  | drw x y n =>
    obtain ⟨-, r, -, rfl⟩ := exec_drw_eq_next.1 h
    exact State.advance_pc_toNat _
  | _ =>
    cases h
    exact State.advance_pc_toNat _

/-- A skip reads registers and keys, and no memory: it does the same whatever memory holds (R103). -/
theorem exec_skip_withMem (m : Memory) (hskip : isSkip i = true) :
    exec i { s with mem := m } = mapNext (fun t => { t with mem := m }) (exec i s) := by
  cases i with
  | seImm x nn | sneImm x nn | seReg x y n | sneReg x y n => rfl
  | skp x =>
    simp only [exec, execSkp, mapNext_withKey]
    rfl
  | sknp x =>
    simp only [exec, execSknp, mapNext_withKey]
    rfl
  | _ => cases hskip

/-- The stack a push leaves, read by number: the pushed word at the old sp, the old entry everywhere else. -/
theorem stackAt_set {k : Nat} (h : k < 16) (w : Word) (j : Nat) (ht : t.stack = s.stack.set k w h) :
    stackAt t j = if j = k then w else stackAt s j := by
  by_cases hj : j < 16
  · rw [stackAt_eq_getElem t hj, stackAt_eq_getElem s hj]
    simp [ht, Vector.getElem_set, eq_comm]
  · rw [if_neg (by omega)]
    simp [stackAt, hj]

/-- A CALL that succeeds pushes the address after it and leaves the other entries (R102). -/
theorem stackAt_of_exec_call {nnn : Addr} (h : exec (.call nnn) s = .next t) (j : Nat) :
    stackAt t j = if j = s.sp.val then s.pc + 2 else stackAt s j := by
  obtain ⟨hsp, rfl⟩ := exec_call_eq_next.1 h
  exact stackAt_set hsp (s.pc + 2) j rfl

/-- Settles O8: `exec_pc` for the table, and for a skip that its instruction does not read memory. -/
theorem pcAfterStepIsTable : Obligations.PcAfterStepIsTable := by
  unfold Obligations.PcAfterStepIsTable
  intro s t i hi h
  obtain ⟨j, u, hj, hexec, rfl⟩ := step_eq_next.1 h
  obtain rfl : i = j := Except.ok.inj (hi.symm.trans hj)
  have hpc : u.pc.toNat = pcAfter i s := exec_pc (s := s.beginStep) hexec
  refine ⟨hpc, ?_, fun hskip m hm => ?_⟩
  · rintro nnn rfl
    have hpush : stackAt u s.sp.val = s.pc + 2 := (stackAt_of_exec_call hexec s.sp.val).trans (if_pos rfl)
    exact (congrArg BitVec.toNat hpush).trans (BitVec.toNat_add _ _)
  · have hexec' : exec i { s with mem := m }.beginStep = .next { u with mem := m } :=
      (exec_skip_withMem m hskip (s := s.beginStep)).trans (by rw [hexec]; rfl)
    exact ⟨_, step_eq_next.2 ⟨i, _, hm, hexec', rfl⟩, rfl⟩

/-- Settles O7: the STEP's tick, and what `exec_frame` says of the instruction's output. -/
theorem tickAndResultOfEveryStep : Obligations.TickAndResultOfEveryStep := by
  unfold Obligations.TickAndResultOfEveryStep
  intro s t i hi h
  obtain ⟨j, u, hj, hexec, rfl⟩ := step_eq_next.1 h
  obtain rfl : i = j := Except.ok.inj (hi.symm.trans hj)
  have hout := (exec_frame hexec).out
  refine ⟨u, hexec, tickDown_toNat _, tickDown_toNat _, ?_, ?_, rfl⟩
  · simp [BitVec.toNat_eq]
  · simp [hout]

end Sys2Proof.Machine
end

section
/-! The registers an instruction writes (R11, R12). -/

namespace Sys2Proof.Machine

open Sys2Proof.Spec

variable {s t : State} {i : Instr} {x y q : RegIdx}

/-! ### The registers an instruction writes (R11, R12) -/

theorem eq_of_readV_writeV_ne {b : Byte} (h : (s.writeV x b).readV q ≠ s.readV q) : q = x :=
  Classical.byContradiction fun hq => h (s.readV_writeV_other b hq)

theorem eq_of_readV_writeResultAndFlag_ne {b : Byte} {c : Bool}
    (h : (s.writeResultAndFlag x b c).readV q ≠ s.readV q) : q = regVF ∨ q = x := by
  by_contra hq
  obtain ⟨hflag, hx⟩ := not_or.1 hq
  exact h (by rw [State.readV_writeResultAndFlag, if_neg hflag, if_neg hx])

theorem le_of_readV_loadRegsUpTo_ne (h : (s.loadRegsUpTo x).readV q ≠ s.readV q) : q ≤ x :=
  Classical.byContradiction fun hq => h (by rw [State.readV_loadRegsUpTo, if_neg hq])

/-- The instructions that can change register `q`: R12's list for VF, and those that name it as their X (R11). -/
def WritesReg (c : Config) (i : Instr) (q : RegIdx) : Prop :=
  (setsVF c i = true ∧ q = 15) ∨
  (∃ nn, i = .ldImm q nn ∨ i = .addImm q nn ∨ i = .rnd q nn) ∨
  (∃ y, i = .ldReg q y ∨ i = .orReg q y ∨ i = .andReg q y ∨ i = .xorReg q y ∨ i = .addReg q y ∨ i = .subReg q y ∨
    i = .subnReg q y ∨ i = .shr q y ∨ i = .shl q y) ∨
  i = .ldVxDT q ∨ i = .ldVxK q ∨ (∃ x, q ≤ x ∧ i = .loadRegs x)

/-- An instruction changes no register but those it writes. -/
theorem exec_writesReg (h : exec i s = .next t) (hq : t.readV q ≠ s.readV q) : WritesReg s.cfg i q := by
  cases i with
  | ldImm x nn | addImm x nn | rnd x nn | ldVxDT x | ldReg x y | orReg x y | andReg x y | xorReg x y =>
    cases h
    obtain rfl := eq_of_readV_writeV_ne hq
    simp [WritesReg]
  | addReg x y | subReg x y | subnReg x y | shr x y | shl x y =>
    cases h
    obtain rfl | rfl := eq_of_readV_writeResultAndFlag_ne hq
    · exact .inl ⟨rfl, rfl⟩
    · simp [WritesReg]
  | ldVxK x =>
    obtain ⟨k, -, rfl⟩ | ⟨-, rfl⟩ := exec_ldVxK_eq_next.1 h
    · obtain rfl := eq_of_readV_writeV_ne hq
      simp [WritesReg]
    · exact absurd rfl hq
  | loadRegs x =>
    obtain ⟨-, rfl⟩ := exec_loadRegs_eq_next.1 h
    simp [WritesReg, le_of_readV_loadRegsUpTo_ne hq]
  | drw x y n =>
    obtain ⟨-, r, -, rfl⟩ := exec_drw_eq_next.1 h
    exact .inl ⟨rfl, eq_of_readV_writeV_ne (s := { s with fb := r.1 }) hq⟩
  | addI x =>
    obtain ⟨u, rfl, rfl⟩ := exec_addI_eq_next.1 h
    cases hmode : s.cfg.indexAddVF with
    | none => simp [hmode] at hq
    | carry16 | over12 =>
      simp only [hmode] at hq
      exact .inl ⟨by simp [setsVF, hmode], eq_of_readV_writeV_ne hq⟩
  | call nnn =>
    obtain ⟨_, rfl⟩ := exec_call_eq_next.1 h
    exact absurd rfl hq
  | ret =>
    obtain ⟨_, rfl⟩ := exec_ret_eq_next.1 h
    exact absurd rfl hq
  | jpV0 nnn =>
    obtain ⟨-, rfl⟩ := exec_jpV0_eq_next.1 h
    exact absurd rfl hq
  | skp x =>
    obtain ⟨k, -, rfl⟩ := exec_skp_eq_next.1 h
    exact absurd rfl hq
  | sknp x =>
    obtain ⟨k, -, rfl⟩ := exec_sknp_eq_next.1 h
    exact absurd rfl hq
  | ldB x =>
    obtain ⟨-, rfl⟩ := exec_ldB_eq_next.1 h
    simp at hq
  | storeRegs x =>
    obtain ⟨-, rfl⟩ := exec_storeRegs_eq_next.1 h
    simp at hq
  | _ =>
    cases h
    exact absurd rfl hq

/-- An instruction of R12's list leaves a flag in VF. -/
theorem exec_flag (h : exec i s = .next t) (hi : setsVF s.cfg i = true) : ∃ c, t.readV regVF = flagByte c := by
  cases i with
  | addReg x y | subReg x y | subnReg x y | shr x y | shl x y =>
    cases h
    exact ⟨_, State.readV_writeResultAndFlag_flag ..⟩
  | drw x y n =>
    obtain ⟨-, r, -, rfl⟩ := exec_drw_eq_next.1 h
    exact ⟨_, State.readV_writeV_same ..⟩
  | addI x =>
    obtain ⟨u, rfl, rfl⟩ := exec_addI_eq_next.1 h
    cases hmode : s.cfg.indexAddVF with
    | none => simp [setsVF, hmode] at hi
    | carry16 | over12 => exact ⟨_, State.readV_writeV_same ..⟩
  | _ => cases hi

/-- Settles O44, by `exec_writesReg` and `exec_flag`. -/
theorem registerWritersAndFlagWriters : Obligations.RegisterWritersAndFlagWriters := by
  unfold Obligations.RegisterWritersAndFlagWriters
  refine fun i s t h => ⟨fun hi => ?_, fun q hq => exec_writesReg h hq⟩
  obtain ⟨c, hc⟩ := exec_flag h hi
  have hflag : t.readV 15 = flagByte c := hc
  cases c <;> simp [hflag]

end Sys2Proof.Machine
end

section
/-! The entropy source and the dirty bit are read by no instruction but RND (R20, R211). -/

namespace Sys2Proof.Machine

open Sys2Proof.Spec

variable {s t : State} {i : Instr}

/-- The state with other entropy bytes injected and taken, and another dirty bit. -/
def State.withUnread (s : State) (e : List Byte) (n : Nat) (d : Bool) : State :=
  { s with entropy := e, draws := n, dirty := d }

variable (e : List Byte) (n : Nat) (d : Bool)

theorem State.readBytes_withUnread (s : State) (a k : Nat) : (s.withUnread e n d).readBytes a k = s.readBytes a k :=
  State.readBytes_congr (s := s) (t := s.withUnread e n d) (fun _ => rfl) a k

theorem State.writeBytes_withUnread (s : State) (a : Nat) (bs : List Byte) :
    (s.withUnread e n d).writeBytes a bs = (s.writeBytes a bs).withUnread e n d := by
  induction bs generalizing s a with
  | nil => rfl
  | cons b bs ih => exact ih (s.writeByte a b) (a + 1)

/-- An instruction other than RND, CLS and DRW that succeeds does the same whatever the entropy source and the dirty bit
hold, and leaves them. -/
theorem exec_withUnread_of_not_display (hi : ∀ x nn, i ≠ .rnd x nn) (hdisp : isDisplay i = false)
    (h : exec i s = .next t) : exec i (s.withUnread e n d) = .next (t.withUnread e n d) := by
  cases i with
  | rnd x nn => exact absurd rfl (hi x nn)
  | cls | drw x y k => cases hdisp
  | call nnn =>
    obtain ⟨hsp, rfl⟩ := exec_call_eq_next.1 h
    exact exec_call_eq_next.2 ⟨hsp, rfl⟩
  | ret =>
    obtain ⟨hsp, rfl⟩ := exec_ret_eq_next.1 h
    exact exec_ret_eq_next.2 ⟨hsp, rfl⟩
  | jpV0 nnn =>
    obtain ⟨hj, rfl⟩ := exec_jpV0_eq_next.1 h
    exact exec_jpV0_eq_next.2 ⟨hj, rfl⟩
  | skp x =>
    obtain ⟨k, hk, rfl⟩ := exec_skp_eq_next.1 h
    exact exec_skp_eq_next.2 ⟨k, hk, rfl⟩
  | sknp x =>
    obtain ⟨k, hk, rfl⟩ := exec_sknp_eq_next.1 h
    exact exec_sknp_eq_next.2 ⟨k, hk, rfl⟩
  | ldVxK x =>
    obtain ⟨k, hk, rfl⟩ | ⟨hk, rfl⟩ := exec_ldVxK_eq_next.1 h
    · exact exec_ldVxK_eq_next.2 (.inl ⟨k, hk, rfl⟩)
    · exact exec_ldVxK_eq_next.2 (.inr ⟨hk, rfl⟩)
  | addI x =>
    obtain ⟨u, rfl, rfl⟩ := exec_addI_eq_next.1 h
    refine exec_addI_eq_next.2 ⟨_, rfl, ?_⟩
    simp only [State.withUnread]
    cases s.cfg.indexAddVF <;> rfl
  | ldB x =>
    obtain ⟨hrange, rfl⟩ := exec_ldB_eq_next.1 h
    exact exec_ldB_eq_next.2 ⟨hrange, congrArg State.advance (State.writeBytes_withUnread e n d s _ _).symm⟩
  | storeRegs x =>
    obtain ⟨hrange, rfl⟩ := exec_storeRegs_eq_next.1 h
    exact exec_storeRegs_eq_next.2 ⟨hrange, congrArg State.advance (State.writeBytes_withUnread e n d s _ _).symm⟩
  | loadRegs x =>
    obtain ⟨hrange, rfl⟩ := exec_loadRegs_eq_next.1 h
    exact exec_loadRegs_eq_next.2 ⟨hrange, rfl⟩
  | _ =>
    cases h
    rfl

/-- CLS and DRW do the same whatever the entropy source and the dirty bit hold, and set the dirty bit. -/
theorem exec_withUnread_of_display (hdisp : isDisplay i = true) (h : exec i s = .next t) :
    exec i (s.withUnread e n d) = .next (t.withUnread e n true) := by
  cases i with
  | cls =>
    cases h
    rfl
  | drw x y k =>
    obtain ⟨hrange, r, hr, rfl⟩ := exec_drw_eq_next.1 h
    rw [← State.readBytes_withUnread e n d] at hr
    exact exec_drw_eq_next.2 ⟨hrange, r, hr, rfl⟩
  | _ => cases hdisp

/-- Every instruction but RND does the same whatever the entropy source and the dirty bit hold: it succeeds alike, and
its fault or refusal is said without them. -/
theorem exec_withUnread (hi : ∀ x nn, i ≠ .rnd x nn) (s : State) :
    exec i (s.withUnread e n d) = mapNext (·.withUnread e n (d || isDisplay i)) (exec i s) := by
  cases h : exec i s with
  | next t =>
    cases hdisp : isDisplay i with
    | false =>
      rw [Bool.or_false]
      exact exec_withUnread_of_not_display e n d hi hdisp h
    | true =>
      rw [Bool.or_true]
      exact exec_withUnread_of_display e n d hdisp h
  | fault f =>
    have hfault := exec_eq_fault.1 h
    exact exec_eq_fault.2 hfault
  | refused r =>
    obtain ⟨rfl, hj, nnn, rfl⟩ := exec_eq_refused h
    exact exec_jpV0_of_undefined hj

/-- Settles O47: `exec_withUnread` with the dirty bit as it is, which `exec_dirty` gives after the instruction. -/
theorem entropyReadOnlyByRandom : Obligations.EntropyReadOnlyByRandom := by
  unfold Obligations.EntropyReadOnlyByRandom
  intro i s e k hi
  refine (exec_withUnread e k s.dirty hi s).trans ?_
  cases h : exec i s with
  | next t => simp only [mapNext, State.withUnread, ← exec_dirty h]
  | fault f => rfl
  | refused r => rfl

/-- No instruction reads the dirty bit; CLS and DRW set it (R20). -/
theorem exec_withDirty (i : Instr) (s : State) (d : Bool) :
    exec i { s with dirty := d } = mapNext (fun t => { t with dirty := d || isDisplay i }) (exec i s) := by
  by_cases hrnd : ∃ x nn, i = .rnd x nn
  · obtain ⟨x, nn, rfl⟩ := hrnd
    simp only [isDisplay, Bool.or_false]
    rfl
  · refine (exec_withUnread s.entropy s.draws d (fun x nn hi => hrnd ⟨x, nn, hi⟩) s).trans ?_
    cases h : exec i s with
    | next t =>
      obtain ⟨hent, hdraws⟩ := (exec_frame h).entropy.resolve_right hrnd
      simp only [mapNext, State.withUnread, ← hent, ← hdraws]
    | fault f => rfl
    | refused r => rfl

/-- Settles O48: a STEP's dirty bit is `step_dirty`, the host's other operations write it by `hostOp_state`. -/
theorem dirtyFlagRules : Obligations.DirtyFlagRules := by
  unfold Obligations.DirtyFlagRules
  refine ⟨fun s t i hi h => step_dirty hi h, fun s => rfl, fun s => rfl, fun o s hreset hclear hstep => ?_,
    exec_withDirty⟩
  cases o with
  | reset => exact absurd rfl hreset
  | clearDirty => exact absurd rfl hclear
  | step b => exact absurd rfl (hstep b)
  | load rom =>
    obtain ⟨m, he⟩ := hostLoad_state rom s
    rw [hostOp, he]
  | setKey k pressed =>
    obtain ⟨keys, he⟩ := hostSetKey_state k pressed s
    rw [hostOp, he]
  | readFb | readDirty | readTimers => rfl

end Sys2Proof.Machine
end

section
/-! The invariant (R22, R89) over a STEP, the host's operations and every reachable state, and the canonical form of
memory. -/

namespace Sys2Proof.Machine

variable {s t : State} {i : Instr}

/-! ### Canonical memories (log 7) -/

/-- In a list of rising addresses, what is listed for an address is the cell at it. -/
theorem Memory.lookup_eq_some_iff {m : List Host.Cell} (hm : m.Pairwise (fun c d => c.1 < d.1)) {a : Nat} {b : Byte} :
    Memory.lookup a m = some b ↔ (a, b) ∈ m := by
  induction m with
  | nil => simp [Memory.lookup]
  | cons c m ih =>
    obtain ⟨a', b'⟩ := c
    obtain ⟨hc, hm⟩ := List.pairwise_cons.1 hm
    simp only [Memory.lookup, List.mem_cons, Prod.mk.injEq]
    split
    · rename_i ha
      have hnot : (a, b) ∉ m := fun hmem => absurd (hc _ hmem) (by simp [ha])
      simp [ha, hnot, eq_comm]
    · rename_i ha
      simp [ih hm, Ne.symm ha]

/-- The cells of a canonical memory are the addresses up to 0xFFF that do not read as their reset contents, with what
they read as. -/
theorem Memory.mem_iff_read {font : Vector Byte 80} {m : Memory} (hwf : Memory.wf font m) {a : Nat} {b : Byte} :
    (a, b) ∈ m ↔ a ≤ 0xFFF ∧ Memory.read font m a = b ∧ b ≠ Memory.background font a := by
  rw [Memory.read, ← Memory.lookup_eq_some_iff hwf.1]
  constructor
  · intro h
    obtain ⟨ha, hb⟩ := hwf.2 _ ((Memory.lookup_eq_some_iff hwf.1).1 h)
    exact ⟨ha, by simp [h], hb⟩
  · rintro ⟨-, hread, hb⟩
    cases h : Memory.lookup a m with
    | none => exact absurd (by simpa [h] using hread.symm) hb
    | some b' => simpa [h] using hread

/-- A canonical memory lists nothing above 0xFFF. -/
theorem Memory.lookup_eq_none_of_wf {font : Vector Byte 80} {m : Memory} {a : Nat} (hwf : Memory.wf font m)
    (ha : a > 0xFFF) : Memory.lookup a m = none := by
  refine Option.eq_none_iff_forall_ne_some.2 fun b h => ?_
  have hle := (hwf.2 _ ((Memory.lookup_eq_some_iff hwf.1).1 h)).1
  omega

/-- Settles O52: two rising lists with the same cells are equal, and `Memory.mem_iff_read` says which cells. -/
theorem canonicalMemoriesAreEqual : Obligations.CanonicalMemoriesAreEqual := by
  unfold Obligations.CanonicalMemoriesAreEqual
  intro font m m' hm hm' hread
  refine hm.1.eq_of_mem_iff hm'.1 fun ⟨a, b⟩ => ?_
  rw [Memory.mem_iff_read hm, Memory.mem_iff_read hm']
  refine and_congr_right fun ha => ?_
  rw [hread a ha]

/-! ### The invariant (R22, R89) -/

theorem exec_keeps_memory_wf (h : exec i s = .next t) (hwf : Memory.wf s.cfg.font s.mem) :
    Memory.wf s.cfg.font t.mem := by
  obtain hmem | ⟨x, rfl | rfl⟩ := (exec_frame h).mem
  · rw [hmem]
    exact hwf
  · obtain ⟨hrange, rfl⟩ := exec_ldB_eq_next.1 h
    exact Memory.wf_writeBytes s hwf s.dataBase _ hrange
  · obtain ⟨hrange, rfl⟩ := exec_storeRegs_eq_next.1 h
    exact Memory.wf_writeBytes s hwf s.dataBase _ (by rw [State.length_regsUpTo]; exact hrange)

/-- A tick that reports the end of the sound leaves ST at 0 (R88). -/
theorem State.tick_st_of_soundStopped (h : s.tick.out.soundStopped = true) : s.tick.st = 0 := by
  have hst : s.st = 1 := by simpa using h
  rw [State.tick_st, hst]
  rfl

theorem step_keeps_stateInv (hinv : StateInv s) (h : step s = .next t) : StateInv t := by
  obtain ⟨i, u, -, hexec, rfl⟩ := step_eq_next.1 h
  have hcfg : u.cfg = s.cfg := (exec_keepsKeysAndParams hexec).2
  have hwf := exec_keeps_memory_wf (s := s.beginStep) hexec hinv.1
  refine ⟨?_, State.tick_st_of_soundStopped⟩
  rw [State.tick_cfg, State.tick_mem, hcfg]
  exact hwf

/-- Settles O50: the instruction keeps the form of memory, the tick makes the outputs true of ST. -/
theorem everyStepKeepsInvariant : Obligations.EveryStepKeepsInvariant := fun _ _ => step_keeps_stateInv

theorem stateInv_resetWith (cfg : Config) : StateInv (State.resetWith cfg) :=
  ⟨Memory.wf_nil _, fun h => by cases h⟩

/-- Settles O49: an empty list is canonical, and no sound has stopped. -/
theorem invariantAtReset : Obligations.InvariantAtReset := ⟨stateInv_resetWith _, stateInv_resetWith⟩

theorem hostLoad_keeps_stateInv (rom : List Byte) (hinv : StateInv s) : StateInv (hostLoad rom s).2 := by
  by_cases hfits : rom.length ≤ 3584
  · rw [hostLoad_of_length_le s hfits]
    exact ⟨Memory.wf_ofBytes rom (by omega), hinv.2⟩
  · rw [hostLoad_of_length_gt s (by omega)]
    exact hinv

theorem hostOp_keeps_stateInv (o : HostOp) (hinv : StateInv s) : StateInv (hostOp o s).2 := by
  cases o with
  | reset => exact stateInv_resetWith s.cfg
  | load rom => exact hostLoad_keeps_stateInv rom hinv
  | step rnd =>
    obtain ⟨t, hstep, he⟩ | ⟨f, -, he⟩ | ⟨r, -, he⟩ := hostStep_cases rnd s
    · rw [hostOp, he]
      have ht : StateInv t := step_keeps_stateInv (s := { s with entropy := rnd :: s.entropy }) hinv hstep
      exact ht
    · rwa [hostOp, he]
    · rwa [hostOp, he]
  | setKey k pressed =>
    obtain ⟨keys, he⟩ := hostSetKey_state k pressed s
    rw [hostOp, he]
    exact hinv
  | readFb | readDirty | clearDirty | readTimers => exact hinv

/-- Settles O60, by `hostOp_keeps_stateInv`: a case per operation, the STEP by `step_keeps_stateInv`. -/
theorem everyHostOperationKeepsInvariant : Obligations.EveryHostOperationKeepsInvariant :=
  fun o _ => hostOp_keeps_stateInv o

theorem hostOp_cfg (o : HostOp) (s : State) : (hostOp o s).2.cfg = s.cfg := by
  cases o with
  | reset => rfl
  | load rom =>
    obtain ⟨m, he⟩ := hostLoad_state rom s
    rw [hostOp, he]
  | step rnd =>
    obtain ⟨t, hstep, he⟩ | ⟨f, -, he⟩ | ⟨r, -, he⟩ := hostStep_cases rnd s
    · rw [hostOp, he]
      exact (step_keepsKeysAndParams hstep).2
    · rw [hostOp, he]
    · rw [hostOp, he]
  | setKey k pressed =>
    obtain ⟨keys, he⟩ := hostSetKey_state k pressed s
    rw [hostOp, he]
  | readFb | readDirty | clearDirty | readTimers => rfl

theorem hostRun_cfg (ops : List HostOp) (s : State) : (hostRun ops s).cfg = s.cfg := by
  induction ops generalizing s with
  | nil => rfl
  | cons o ops ih => exact (ih _).trans (hostOp_cfg o s)

theorem Reachable.stateInv (h : Reachable s) : StateInv s := by
  induction h with
  | reset cfg => exact stateInv_resetWith cfg
  | op o s _ ih => exact hostOp_keeps_stateInv o ih

/-- Settles O51: the invariant by induction over the host's operations, which keep the parameters. -/
theorem reachableStatesMeetInvariant : Obligations.ReachableStatesMeetInvariant :=
  ⟨fun _ h => ⟨h.stateInv, fun _ => Memory.lookup_eq_none_of_wf h.stateInv.1⟩, hostRun_cfg⟩

end Sys2Proof.Machine
end

section
/-! The stores and loads of memory at I (43_index_memory.md): what the bytes written read as, the frame of each, and
what a later load or fetch sees of a store. -/

namespace Sys2Proof.Machine

open Sys2Proof.Spec

variable {s t : State} {x : RegIdx}

/-! ### The data range as the rules say it (R45) -/

theorem State.withData_fault_of_lt {n : Nat} (hn : 0 < n) (h : s.dataBase + n - 1 > 0xFFF) (go : StepOutcome) :
    s.withData n go = .fault (.addressOutOfRange (.data s.index n)) :=
  State.withData_of_outOfRange (by unfold State.dataBase at h; omega) go

/-! ### Frames -/

/-- Writing bytes at an address and going on to the next word changes nothing else. -/
theorem onlyMemory_writeBytes_advance (s : State) (a : Nat) (bs : List Byte) :
    OnlyMemory a bs.length s (s.writeBytes a bs).advance := by
  refine ⟨fun r _ => s.readV_writeBytes a bs r, fun a' ha => s.readByte_writeBytes_outside bs ha, ?_⟩
  simp [KeepsIndex, KeepsStack, KeepsTimers, KeepsDisplay, KeepsKeysAndParams, KeepsEntropy]

/-- The registers a block load writes (R145). -/
theorem onlyRegs_loadRegsUpTo_advance (s : State) (x : RegIdx) :
    OnlyRegs ((List.finRange 16).filter fun k => decide (k ≤ x)) s (s.loadRegsUpTo x).advance := by
  refine ⟨fun r hr => ?_, by
    simp [KeepsMemory, KeepsIndex, KeepsStack, KeepsTimers, KeepsDisplay, KeepsKeysAndParams, KeepsEntropy]⟩
  have hlt : ¬ r ≤ x := by
    rw [List.mem_filter, decide_eq_true_eq] at hr
    exact fun hle => hr ⟨List.mem_finRange r, hle⟩
  rw [State.readV_advance, State.readV_loadRegsUpTo, if_neg hlt]

/-! ### Reading back what was written -/

/-- Byte `j` of a list written at `a` is read at `a + j`. -/
theorem State.readByte_writeBytes_add (s : State) (a : Nat) (bs : List Byte) {j : Nat} (h : j < bs.length) :
    (s.writeBytes a bs).readByte (a + j) = bs[j] := by
  rw [State.readByte_writeBytes, dif_pos (by omega)]
  simp only [Nat.add_sub_cancel_left]

/-- A block store leaves V[k] at I + k (R144). -/
theorem readByte_of_exec_storeRegs (h : exec (.storeRegs x) s = .next t) {k : RegIdx} (hk : k ≤ x) :
    t.readByte (s.dataBase + k.val) = s.readV k := by
  obtain ⟨-, rfl⟩ := exec_storeRegs_eq_next.1 h
  have hlen : k.val < (s.regsUpTo x).length := by
    rw [State.length_regsUpTo]
    exact Nat.lt_succ_of_le hk
  rw [State.readByte_advance, State.readByte_writeBytes_add _ _ _ hlen, State.getElem_regsUpTo]

/-- Settles O26, by the two ends of the range check, `readByte_of_exec_storeRegs` and the frame of a store. -/
theorem blockStore : Obligations.BlockStore := by
  unfold Obligations.BlockStore
  intro x
  rw [← wordRegImm_eq_append]
  refine ⟨decodeWord_encodeWord (.storeRegs x), fun s => ⟨fun hin => ?_, fun hout => ?_⟩⟩
  · have hexec := (exec_storeRegs_eq_next (s := s) (x := x)).2 ⟨by unfold State.dataBase at hin; omega, rfl⟩
    refine ⟨_, hexec, fun k hk => readByte_of_exec_storeRegs hexec hk, exec_pc hexec, ?_⟩
    rw [← s.length_regsUpTo x]
    exact onlyMemory_writeBytes_advance s s.dataBase (s.regsUpTo x)
  · exact State.withData_fault_of_lt (Nat.succ_pos _) hout _

/-- Settles O27, by the two ends of the range check and the frame of a load. -/
theorem blockLoad : Obligations.BlockLoad := by
  unfold Obligations.BlockLoad
  intro x
  rw [← wordRegImm_eq_append]
  refine ⟨decodeWord_encodeWord (.loadRegs x), fun s => ⟨fun hin => ?_, fun hout => ?_⟩⟩
  · have hexec := (exec_loadRegs_eq_next (s := s) (x := x)).2 ⟨by unfold State.dataBase at hin; omega, rfl⟩
    refine ⟨_, hexec, fun k hk => ?_, exec_pc hexec, onlyRegs_loadRegsUpTo_advance s x⟩
    exact (s.readV_loadRegsUpTo x k).trans (if_pos hk)
  · exact State.withData_fault_of_lt (Nat.succ_pos _) hout _

/-- Settles O28: the store leaves I and puts V[k] where the load reads it. -/
theorem blockLoadUndoesBlockStore : Obligations.BlockLoadUndoesBlockStore := by
  unfold Obligations.BlockLoadUndoesBlockStore
  intro s t x w hstore
  obtain ⟨hrange, ht⟩ := exec_storeRegs_eq_next.1 hstore
  have hindex : t.index = s.index := by rw [ht, State.advance_index, State.writeBytes_index]
  refine ⟨_, exec_loadRegs_eq_next.2 ⟨by simpa [hindex] using hrange, rfl⟩, fun k hk => ?_⟩
  rw [State.readV_advance, State.readV_loadRegsUpTo, if_pos hk, ← readByte_of_exec_storeRegs hstore hk]
  simp only [hindex]
  rfl

/-- Settles O29: the range check of the store keeps the fetch below 0xFFF, and the two bytes are the stored registers.
-/
theorem storedWordIsFetched : Obligations.StoredWordIsFetched := by
  unfold Obligations.StoredWordIsFetched
  intro s t u x k j hstore hj hjx hmem hcfg hpc
  obtain ⟨hrange, -⟩ := exec_storeRegs_eq_next.1 hstore
  have hread : ∀ a, u.readByte a = t.readByte a := fun a => by rw [State.readByte, hmem, hcfg, State.readByte]
  have hjx' : j.val ≤ x.val := hjx
  have hkx : k ≤ x := Fin.le_def.2 (by omega)
  have hpcj : u.pc.toNat + 1 = s.dataBase + j.val := by omega
  obtain ⟨hout, -⟩ | ⟨-, hfetch⟩ := u.fetch_cases
  · unfold State.dataBase at hpc
    omega
  · rw [hfetch, hpcj, hpc, hread, hread, readByte_of_exec_storeRegs hstore hkx, readByte_of_exec_storeRegs hstore hjx]

/-- Settles O25: the three digits read back from the list written, and the frame of a store of three bytes. -/
theorem bcdStore : Obligations.BcdStore := by
  unfold Obligations.BcdStore
  intro x
  rw [← wordRegImm_eq_append]
  refine ⟨decodeWord_encodeWord (.ldB x), fun s => ⟨fun hin => ?_, fun hout => ?_⟩⟩
  · have hexec := (exec_ldB_eq_next (s := s) (x := x)).2 ⟨by unfold State.dataBase at hin; omega, rfl⟩
    have hread {j : Nat} (hj : j < 3) := congrArg BitVec.toNat
      (s.readByte_writeBytes_add s.dataBase (bcdDigits (s.readV x)) hj)
    have hbyte := (s.readV x).isLt
    refine ⟨_, hexec, (hread (j := 0) (by omega)).trans ?_, (hread (j := 1) (by omega)).trans ?_,
      (hread (j := 2) (by omega)).trans ?_, exec_pc hexec,
      onlyMemory_writeBytes_advance s s.dataBase (bcdDigits (s.readV x))⟩ <;>
    · simp only [bcdDigits, List.getElem_cons_zero, List.getElem_cons_succ, BitVec.toNat_ofNat]
      omega
  · exact State.withData_fault_of_lt (by omega) hout _

end Sys2Proof.Machine
end

section
/-! The load, ALU and index instructions (42_load_alu.md, 43_index_memory.md): each writes one register or I, and the
flag last where it has one. -/

namespace Sys2Proof

/-- REGREG with its fields written one after the other (R61, R62). -/
theorem wordRegReg_eq_append (p : Nibble) (x y : RegIdx) (n : Nibble) :
    wordRegReg p x y n = p ++ BitVec.ofNat 4 x.val ++ BitVec.ofNat 4 y.val ++ n := by
  have hreg (r : RegIdx) : nibbleOfReg r = BitVec.ofNat 4 r.val := BitVec.eq_of_toNat_eq (Nat.mod_eq_of_lt r.isLt).symm
  rw [wordRegReg, hreg, hreg]
  exact BitVec.append_assoc.symm.trans BitVec.append_assoc.symm

end Sys2Proof

namespace Sys2Proof.Machine

open Sys2Proof.Spec

variable (s : State) (x : RegIdx)

/-! ### A result and its flag (R121) -/

/-- An instruction that writes a result and its flag, and goes on to the next word. -/
theorem writeResultAndFlag_advance_spec (res : Byte) (c : Bool) {t : State}
    (ht : t = (s.writeResultAndFlag x res c).advance) :
    (x ≠ 15 → t.readV x = res) ∧ (t.readV 15).toNat = (if c then 1 else 0) ∧
      t.pc.toNat = (s.pc.toNat + 2) % 2 ^ 16 ∧ OnlyRegs [x, 15] s t := by
  subst ht
  refine ⟨fun hx => ?result, ?flag, State.advance_pc_toNat _, fun r hr => ?regs, fun _ => rfl, rfl, ⟨rfl, rfl⟩,
    ⟨rfl, rfl⟩, ⟨rfl, rfl, rfl⟩, ⟨rfl, rfl⟩, rfl, rfl⟩
  case result => exact (s.readV_writeResultAndFlag x x res c).trans ((if_neg hx).trans (if_pos rfl))
  case flag => exact (congrArg BitVec.toNat (s.readV_writeResultAndFlag_flag x res c)).trans (flagByte_toNat c)
  case regs =>
    obtain ⟨hx, hflag⟩ : r ≠ x ∧ r ≠ 15 := by simpa using hr
    exact (s.readV_writeResultAndFlag x r res c).trans ((if_neg hflag).trans (if_neg hx))

theorem diffByte_toInt (a b : Byte) : ((diffByte a b).toNat : Int) = (a.toNat - b.toNat : Int) % 256 := by
  have := b.isLt
  rw [diffByte_toNat]
  omega

/-- An instruction that writes a difference and its not-borrow, and goes on to the next word (R129, R130). -/
theorem difference_advance_spec (a b : Byte) {t : State}
    (ht : t = (s.writeResultAndFlag x (diffByte a b) (notBorrowFlag a b)).advance) :
    (x ≠ 15 → ((t.readV x).toNat : Int) = (a.toNat - b.toNat : Int) % 256) ∧
      (t.readV 15).toNat = (if a.toNat ≥ b.toNat then 1 else 0) ∧
      t.pc.toNat = (s.pc.toNat + 2) % 2 ^ 16 ∧ OnlyRegs [x, 15] s t := by
  obtain ⟨hres, hflag, hrest⟩ := writeResultAndFlag_advance_spec s x _ _ ht
  refine ⟨fun hx => by rw [hres hx, diffByte_toInt], hflag.trans ?_, hrest⟩
  simp only [notBorrowFlag, decide_eq_true_eq]

/-! ### The bits a shift by one moves (R131, R133) -/

theorem shiftRightByte_toNat (a : Byte) : (shiftRightByte a).toNat = a.toNat / 2 := by
  simp [shiftRightByte, Nat.shiftRight_eq_div_pow]

theorem shiftLeftByte_toNat (a : Byte) : (shiftLeftByte a).toNat = 2 * a.toNat % 256 := by
  simp [shiftLeftByte, Nat.shiftLeft_eq, Nat.mul_comm]

theorem shiftedOutRight_toNat (a : Byte) : (if shiftedOutRight a then 1 else 0) = a.toNat % 2 := by
  simp only [shiftedOutRight, BitVec.getLsbD, Nat.testBit_zero, decide_eq_true_eq]
  split <;> omega

theorem shiftedOutLeft_toNat (a : Byte) : (if shiftedOutLeft a then 1 else 0) = a.toNat / 128 := by
  have := a.isLt
  simp only [shiftedOutLeft, BitVec.getLsbD, Nat.testBit_eq_decide_div_mod_eq, decide_eq_true_eq]
  split <;> omega

theorem State.shiftOperand_eq_ite (y : RegIdx) :
    s.shiftOperand x y = if s.cfg.shiftSrc = .vx then s.readV x else s.readV y := by
  unfold State.shiftOperand
  cases s.cfg.shiftSrc <;> simp

/-! ### The load and ALU family -/

/-- Settles O16: one register written with the advance. -/
theorem registerLoads : Obligations.RegisterLoads := by
  unfold Obligations.RegisterLoads
  intro x y nn
  rw [← wordRegImm_eq_append, ← wordRegReg_eq_append]
  refine ⟨decodeWord_encodeWord (.ldImm x nn), decodeWord_encodeWord (.ldReg x y), fun s => ⟨?_, ?_⟩⟩
  · exact ⟨_, rfl, s.readV_writeV_same x nn, State.advance_pc_toNat _, onlyRegs_writeV_advance s x nn⟩
  · exact ⟨_, rfl, s.readV_writeV_same x _, State.advance_pc_toNat _, onlyRegs_writeV_advance s x _⟩

/-- Settles O18: one register written with the advance, and the bits of the three operations. -/
theorem logicOperations : Obligations.LogicOperations := by
  unfold Obligations.LogicOperations
  intro x y
  simp only [← wordRegReg_eq_append]
  refine ⟨decodeWord_encodeWord (.orReg x y), decodeWord_encodeWord (.andReg x y), decodeWord_encodeWord (.xorReg x y),
    fun s => ⟨⟨_, rfl, fun j _ => ?_, State.advance_pc_toNat _, onlyRegs_writeV_advance s x _⟩,
      ⟨_, rfl, fun j _ => ?_, State.advance_pc_toNat _, onlyRegs_writeV_advance s x _⟩,
      ⟨_, rfl, fun j _ => ?_, State.advance_pc_toNat _, onlyRegs_writeV_advance s x _⟩⟩⟩
  · rw [State.readV_advance, State.readV_writeV_same, BitVec.getLsbD_or]
  · rw [State.readV_advance, State.readV_writeV_same, BitVec.getLsbD_and]
  · rw [State.readV_advance, State.readV_writeV_same, BitVec.getLsbD_xor]

/-- Settles O19, by `writeResultAndFlag_advance_spec` with the sum and its carry. -/
theorem addSetsCarry : Obligations.AddSetsCarry := by
  unfold Obligations.AddSetsCarry
  intro x y
  rw [← wordRegReg_eq_append]
  refine ⟨decodeWord_encodeWord (.addReg x y), fun s => ⟨_, rfl, ?_⟩⟩
  obtain ⟨hres, hflag, hrest⟩ := writeResultAndFlag_advance_spec s x (sumByte (s.readV x) (s.readV y))
    (carryFlag (s.readV x) (s.readV y)) rfl
  refine ⟨fun hx => (congrArg BitVec.toNat (hres hx)).trans (sumByte_toNat _ _), hflag.trans ?_, hrest⟩
  simp only [carryFlag, decide_eq_true_eq]

/-- Settles O20, by `difference_advance_spec` for each order of the operands. -/
theorem subtractsSetNotBorrow : Obligations.SubtractsSetNotBorrow := by
  unfold Obligations.SubtractsSetNotBorrow
  intro x y
  simp only [← wordRegReg_eq_append]
  exact ⟨decodeWord_encodeWord (.subReg x y), decodeWord_encodeWord (.subnReg x y), fun s =>
    ⟨⟨_, rfl, difference_advance_spec s x (s.readV x) (s.readV y) rfl⟩,
      ⟨_, rfl, difference_advance_spec s x (s.readV y) (s.readV x) rfl⟩⟩⟩

/-- Settles O21, by `writeResultAndFlag_advance_spec` with each shifted byte and the bit shifted out. -/
theorem shiftsByOne : Obligations.ShiftsByOne := by
  unfold Obligations.ShiftsByOne
  intro x y
  simp only [← wordRegReg_eq_append]
  refine ⟨decodeWord_encodeWord (.shr x y), decodeWord_encodeWord (.shl x y), fun s a ha => ?_⟩
  rw [← State.shiftOperand_eq_ite] at ha
  subst ha
  obtain ⟨hresR, hflagR, hrestR⟩ := writeResultAndFlag_advance_spec s x (shiftRightByte (s.shiftOperand x y))
    (shiftedOutRight (s.shiftOperand x y)) rfl
  obtain ⟨hresL, hflagL, hrestL⟩ := writeResultAndFlag_advance_spec s x (shiftLeftByte (s.shiftOperand x y))
    (shiftedOutLeft (s.shiftOperand x y)) rfl
  exact ⟨⟨_, rfl, fun hx => by rw [hresR hx, shiftRightByte_toNat], hflagR.trans (shiftedOutRight_toNat _), hrestR⟩,
    ⟨_, rfl, fun hx => by rw [hresL hx, shiftLeftByte_toNat], hflagL.trans (shiftedOutLeft_toNat _), hrestL⟩⟩

/-! ### The index register -/

/-- Settles O23: V[X] times 5 stays below 2^16. -/
theorem fontAddress : Obligations.FontAddress := by
  unfold Obligations.FontAddress
  intro x
  rw [← wordRegImm_eq_append]
  refine ⟨decodeWord_encodeWord (.ldF x), fun s => ⟨_, rfl, ?_, State.advance_pc_toNat _,
    onlyIndex_writeIndex_advance s _⟩⟩
  have hbyte := (s.readV x).isLt
  rw [State.advance_index, State.writeIndex_index, BitVec.toNat_mul, byteWord_toNat]
  exact Nat.mod_eq_of_lt (by simp; omega)

/-- Writing I, then VF, and going on to the next word changes nothing else. -/
theorem onlyIndex_writeFlagIf_advance (w : Word) (c : Option Bool) :
    OnlyIndex [15] s ((s.writeIndex w).writeFlagIf c).advance := by
  cases c with
  | none => exact ⟨fun _ _ => rfl, fun _ => rfl, ⟨rfl, rfl⟩, ⟨rfl, rfl⟩, ⟨rfl, rfl, rfl⟩, ⟨rfl, rfl⟩, rfl, rfl⟩
  | some c =>
    have hregs : KeepsRegsExcept [15] s ((s.writeIndex w).writeFlagIf (some c)).advance := fun r hr =>
      (s.writeIndex w).readV_writeV_other _ (List.ne_of_not_mem_cons hr)
    exact ⟨hregs, fun _ => rfl, ⟨rfl, rfl⟩, ⟨rfl, rfl⟩, ⟨rfl, rfl, rfl⟩, ⟨rfl, rfl⟩, rfl, rfl⟩

/-- The flag of an instruction that has one, read back after the advance. -/
theorem flag_writeFlagIf_advance (c : Bool) :
    ((s.writeFlagIf (some c)).advance.readV 15).toNat = if c then 1 else 0 :=
  (congrArg BitVec.toNat (s.readV_writeV_same regVF _)).trans (flagByte_toNat c)

/-- Settles O24: the sum in I, and VF by the setting. -/
theorem indexAdd : Obligations.IndexAdd := by
  unfold Obligations.IndexAdd
  intro x
  rw [← wordRegImm_eq_append]
  refine ⟨decodeWord_encodeWord (.addI x), ?_⟩
  rintro s sum rfl
  have hexec : exec (.addI x) s = .next _ := rfl
  refine ⟨_, hexec, ?_, fun hmode => ?_, fun hmode => ?_, fun hmode => ?_, exec_pc hexec,
    onlyIndex_writeFlagIf_advance s _ _⟩
  · cases s.cfg.indexAddVF <;> exact BitVec.toNat_ofNat _ _
  · rw [hmode]
    rfl
  · rw [hmode]
    exact (flag_writeFlagIf_advance _ _).trans (by simp [indexSum])
  · rw [hmode]
    exact (flag_writeFlagIf_advance _ _).trans (by simp [indexSum])

end Sys2Proof.Machine
end

section
/-! Control transfer, keys and random (41_control_flow.md, 45_timers_keys_random.md). -/

namespace Sys2Proof.Machine

open Sys2Proof.Spec

variable {s t : State} {x : RegIdx}

/-! ### Control transfer -/

/-- Settles O10, by `exec_call_eq_next`, the stack after a CALL read by number, and the fault of one on a full stack. -/
theorem callPushesReturnAddress : Obligations.CallPushesReturnAddress := by
  unfold Obligations.CallPushesReturnAddress
  refine fun nnn => ⟨decodeWord_encodeWord (.call nnn), fun s => ⟨fun hsp => ?_, exec_call_of_full nnn⟩⟩
  have hexec := (exec_call_eq_next (s := s) (nnn := nnn)).2 ⟨hsp, rfl⟩
  refine ⟨_, hexec, exec_pc hexec, rfl, ?_, fun k hk => (stackAt_of_exec_call hexec k).trans (if_neg hk),
    fun _ _ => rfl, fun _ => rfl, rfl, ⟨rfl, rfl⟩, ⟨rfl, rfl, rfl⟩, ⟨rfl, rfl⟩, rfl, rfl⟩
  rw [stackAt_of_exec_call hexec, if_pos rfl]
  exact BitVec.toNat_add _ _

/-- Settles O12: the RET pops the entry at the CALL's old sp. -/
theorem retResumesAfterItsCall : Obligations.RetResumesAfterItsCall := by
  unfold Obligations.RetResumesAfterItsCall
  intro s t u nnn hcall hstack hsp
  obtain ⟨hfull, rfl⟩ := exec_call_eq_next.1 hcall
  have husp : u.sp.val = s.sp.val + 1 := congrArg Fin.val hsp
  exact ⟨_, exec_ret_eq_next.2 ⟨by omega, rfl⟩, by simp [husp, hstack], Fin.ext (by simp [husp])⟩

/-- Settles O13: the two settings of JUMP_OFFSET. -/
theorem jpV0AddsV0 : Obligations.JpV0AddsV0 := by
  unfold Obligations.JpV0AddsV0
  refine fun nnn => ⟨decodeWord_encodeWord (.jpV0 nnn), fun s => ⟨fun hj => ?_, exec_jpV0_of_undefined⟩⟩
  have hexec := (exec_jpV0_eq_next (nnn := nnn)).2 ⟨hj, rfl⟩
  exact ⟨_, hexec, exec_pc hexec, onlyRegs_setPc s _⟩

/-- Settles O15: each skip is `skipIf` of its comparison, which is the comparison of the numbers. -/
theorem registerSkips : Obligations.RegisterSkips := by
  unfold Obligations.RegisterSkips
  intro x y n
  simp only [← wordRegReg_eq_append]
  refine ⟨decodeWord_encodeWord (.seReg x y n), decodeWord_encodeWord (.sneReg x y n), fun s => ⟨?_, ?_⟩⟩
  · refine ⟨s.skipIf (s.readV x == s.readV y), rfl, ?_, onlyRegs_skipIf s _⟩
    simp only [State.skipIf_pc_toNat, beq_iff_eq, BitVec.toNat_inj]
  · refine ⟨s.skipIf (s.readV x != s.readV y), rfl, ?_, onlyRegs_skipIf s _⟩
    simp only [State.skipIf_pc_toNat, bne_iff_ne, BitVec.toNat_ne_iff_ne]

/-! ### Keys -/

/-- A key access whose key number is 0 to 15 goes on with that key. -/
theorem State.withKey_of_le (h : (s.readV x).toNat ≤ 15) (go : Fin 16 → StepOutcome) :
    s.withKey x go = go ⟨(s.readV x).toNat, by omega⟩ := by
  obtain ⟨k, hk, he⟩ | ⟨hgt, -⟩ := s.withKey_cases x go
  · rw [he]
    exact congrArg go (Fin.ext hk)
  · omega

/-- A key access whose key number is above 15 raises AddressOutOfRange(key, V[X]) (R176). -/
theorem State.withKey_of_gt (h : (s.readV x).toNat > 15) (go : Fin 16 → StepOutcome) :
    s.withKey x go = .fault (.addressOutOfRange (.key (s.readV x))) := by
  obtain ⟨k, hk, -⟩ | ⟨-, he⟩ := s.withKey_cases x go
  · omega
  · exact he

/-- Settles O36: both skips go on with the key V[X] names, or raise the key fault. -/
theorem keySkips : Obligations.KeySkips := by
  unfold Obligations.KeySkips
  intro x
  simp only [← wordRegImm_eq_append]
  refine ⟨decodeWord_encodeWord (.skp x), decodeWord_encodeWord (.sknp x), fun s => ⟨fun hle => ⟨?_, ?_⟩, fun hgt =>
    ⟨State.withKey_of_gt hgt _, State.withKey_of_gt hgt _⟩⟩⟩
  · have hexec : exec (.skp x) s = .next _ := State.withKey_of_le hle _
    exact ⟨_, hexec, onlyRegs_skipIf s _, exec_pc hexec⟩
  · have hexec : exec (.sknp x) s = .next _ := State.withKey_of_le hle _
    exact ⟨_, hexec, onlyRegs_skipIf s _, exec_pc hexec⟩

/-- Settles O37, by which key a key-wait finds (`State.lowestKey_eq_some`, `State.lowestKey_eq_none`). -/
theorem keyWait : Obligations.KeyWait := by
  unfold Obligations.KeyWait
  intro x
  rw [← wordRegImm_eq_append]
  refine ⟨decodeWord_encodeWord (.ldVxK x), fun s => ⟨fun k hk hdown hleast => ?_, fun hnone => ?_⟩⟩
  · have hlow : s.lowestKey = some ⟨k, hk⟩ := State.lowestKey_eq_some.2
      ⟨(keyAt_eq_keyDown s ⟨k, hk⟩).symm.trans hdown, fun j hj => (keyAt_eq_keyDown s j).symm.trans (hleast j hj)⟩
    have hexec := (exec_ldVxK_eq_next (x := x)).2 (.inl ⟨_, hlow, rfl⟩)
    refine ⟨_, hexec, ?_, State.advance_pc_toNat _, onlyRegs_writeV_advance s x _⟩
    rw [State.readV_advance, State.readV_writeV_same, BitVec.toNat_ofNat]
    exact Nat.mod_eq_of_lt (by omega)
  · have hlow : s.lowestKey = none := State.lowestKey_eq_none.2 fun k =>
      (keyAt_eq_keyDown s k).symm.trans (hnone k k.isLt)
    exact exec_ldVxK_eq_next.2 (.inr ⟨hlow, rfl⟩)

/-! ### Random -/

/-- Every instruction but RND consumes no entropy byte (R211). -/
theorem exec_keepsEntropy {i : Instr} (hi : ∀ y mm, i ≠ .rnd y mm) (h : exec i s = .next t) : KeepsEntropy s t :=
  (exec_frame h).entropy.resolve_right fun ⟨y, mm, he⟩ => hi y mm he

/-- A host's STEP whose STEP succeeds. -/
theorem hostStep_of_next {rnd : Byte} (h : step { s with entropy := rnd :: s.entropy } = .next t) :
    hostStep rnd s = (.ok t.out, { t with entropy := s.entropy }) := by
  simp only [hostStep, h]

/-- Settles O34: the byte at the head of the source, or the free value, and `exec_keepsEntropy` for the others. -/
theorem randomMasksEntropyByte : Obligations.RandomMasksEntropyByte := by
  unfold Obligations.RandomMasksEntropyByte
  intro x nn
  rw [← wordRegImm_eq_append]
  have hreg (s : State) : (s.consumeEntropy.writeV x (s.entropyByte &&& nn)).advance.readV x = s.entropyByte &&& nn :=
    State.readV_writeV_same _ x _
  refine ⟨decodeWord_encodeWord (.rnd x nn), fun s => ⟨_, rfl, fun b rest he => ?_, fun _ => ⟨s.entropyByte, hreg s⟩,
    rfl, State.advance_pc_toNat _, ?_⟩, fun s rnd hi => ?_, fun i s t hi h => exec_keepsEntropy hi h⟩
  · have hbyte : s.entropyByte = b := by simp only [State.entropyByte, he]
    exact ⟨hbyte ▸ hreg s, congrArg List.tail he⟩
  · exact ⟨fun r hr => s.consumeEntropy.readV_writeV_other _ (List.ne_of_not_mem_cons hr), fun _ => rfl, rfl,
      ⟨rfl, rfl⟩, ⟨rfl, rfl⟩, ⟨rfl, rfl, rfl⟩, rfl, rfl⟩
  · have hstep : step { s with entropy := rnd :: s.entropy } = .next _ := step_eq_next.2 ⟨_, _, hi, rfl, rfl⟩
    exact ⟨_, _, hostStep_of_next hstep, State.readV_writeV_same _ x _, rfl⟩

end Sys2Proof.Machine
end

section
/-! The fetch of a STEP (40_step_cycle.md) and the host interface at the start of a run (70_reset_and_hazards.md):
RESET, LOAD, SET_KEY and the first STEP. -/

namespace Sys2Proof.Machine

open Sys2Proof.Spec

variable {s : State}

/-! ### Fetch, decode, execute (R80) -/

/-- Settles O1: each word is the encoder's word of the instruction it stands for; the last selects no row. -/
theorem specWordsDecode : Obligations.SpecWordsDecode := by
  unfold Obligations.SpecWordsDecode
  exact ⟨decodeWord_encodeWord (.ldImm 0 5), decodeWord_encodeWord (.ldImm 1 5), decodeWord_encodeWord (.sneReg 0 1 0),
    decodeWord_encodeWord .cls, decodeWord_encodeWord .ret, decodeWord_encodeWord (.call 0x210),
    decodeWord_encodeWord (.shr 1 2), decodeWord_encodeWord (.drw 1 2 5), decodeWord_encodeWord (.sknp 2),
    decodeWord_encodeWord (.loadRegs 2), rfl⟩

/-- A fetch below 0xFFF gives the two bytes at pc, big-endian (R43, R81). -/
theorem State.fetch_of_lt (h : s.pc.toNat < 0xFFF) :
    s.fetch = .ok (wordOfBytes (s.readByte s.pc.toNat) (s.readByte (s.pc.toNat + 1))) :=
  if_neg (Nat.not_le.2 h)

/-- Settles O6: the word is the two bytes as a number, and a STEP does what decoding it says. -/
theorem stepRunsDecodedInstruction : Obligations.StepRunsDecodedInstruction := by
  unfold Obligations.StepRunsDecodedInstruction
  refine fun s => ⟨fun hpc => ?_, fun op hpc hop => ?_⟩
  · have hfetch : s.fetch = .error (.addressOutOfRange (.fetch s.pc)) := if_pos hpc
    exact step_eq_fault_iff.2 (.inl hfetch)
  · have hfetch : s.fetch = .ok op := by
      rw [State.fetch_of_lt hpc, BitVec.eq_of_toNat_eq ((wordOfBytes_toNat _ _).trans hop.symm)]
    refine ⟨fun e he => step_eq_fault.2 (.inl (State.fetchInstr_of_decode_error hfetch he)), fun i hi => ?_⟩
    have hstep : step s = completeStep (exec i { s with out := ⟨false, false⟩ }) :=
      step_of_fetchInstr_ok (State.fetchInstr_of_decode_ok hfetch hi)
    exact ⟨fun u h => by rw [hstep, h, completeStep], fun f h => by rw [hstep, h, completeStep],
      fun r h => by rw [hstep, h, completeStep]⟩

/-! ### RESET (R25, R220) -/

/-- After RESET every address reads as its reset contents. -/
theorem readByte_of_mem_nil (h : s.mem = []) (a : Nat) : s.readByte a = Memory.background s.cfg.font a := by
  rw [State.readByte, h]
  rfl

/-- Settles O53: no cell is listed, so every address reads as its reset contents; the rest is the value RESET gives. -/
theorem resetValuesOfTheSource : Obligations.ResetValuesOfTheSource := by
  unfold Obligations.ResetValuesOfTheSource
  rintro s t rfl
  have hread (a : Nat) : (hostReset s).readByte a = Memory.background s.cfg.font a := readByte_of_mem_nil rfl a
  exact ⟨rfl, rfl, rfl, rfl, Framebuffer.pixel_clear, keyAt_hostReset s,
    fun j hj => (hread j).trans (Memory.background_of_lt _ hj),
    fun a ha => (hread a).trans (Memory.background_of_ge _ ha), rfl⟩

/-- Settles O54: every register and every stack entry is an entry of a vector of zeros. -/
theorem resetValuesChosen : Obligations.ResetValuesChosen := by
  unfold Obligations.ResetValuesChosen
  rintro s t rfl
  refine ⟨fun q => ?_, rfl, fun k => ?_, rfl⟩
  · simp [hostOp, hostReset, State.resetWith, State.readV, Vector.get_eq_getElem]
  · exact List.getElem?_getD_replicate_default_eq 0 16 k

/-! ### LOAD and SET_KEY (R208, R225) -/

/-- Settles O56, by `hostLoad_state`. -/
theorem loadChangesMemoryOnly : Obligations.LoadChangesMemoryOnly := by
  unfold Obligations.LoadChangesMemoryOnly
  intro rom s
  obtain ⟨m, he⟩ := hostLoad_state rom s
  rw [hostOp, he]

/-- Settles O58: one entry of the latch, or the refusal. -/
theorem setKeySetsOneKey : Obligations.SetKeySetsOneKey := by
  unfold Obligations.SetKeySetsOneKey
  refine fun k b s => ⟨fun hk => ⟨_, dif_pos (decide_eq_true hk), ?_, fun j hj => ?_, rfl⟩, fun hk => dif_neg ?_⟩
  · have hk' : k < 16 := by omega
    simp [keyAt, hk']
  · simp [keyAt, Vector.getElem?_set_ne _ hj.symm]
  · simp only [keyIndexInDomain, decide_eq_true_eq]
    omega

/-! ### The first STEP of a run (R222, R226) -/

/-- The bytes LOAD puts at 0x200 make the instruction they encode the next one to execute. -/
theorem fetchInstr_of_load (i : Instr) (rest : List Byte) (hpc : s.pc = 0x200)
    (hmem : s.mem = Memory.ofBytes s.cfg.font 0x200 (encode i ++ rest)) : s.fetchInstr = .ok i := by
  have hread {j : Nat} (hj : j < (encode i ++ rest).length) : s.readByte (0x200 + j) = (encode i ++ rest)[j] := by
    rw [State.readByte, hmem, Memory.read_ofBytes_add _ _ _ hj]
  have hhi : s.readByte 0x200 = highByte (encodeWord i) := hread (j := 0) (by simp [encode])
  have hlo : s.readByte 0x201 = lowByte (encodeWord i) := hread (j := 1) (by simp [encode])
  have hfetch : s.fetch = .ok (encodeWord i) := by
    have hlt : s.pc.toNat < 0xFFF := by rw [hpc]; decide
    rw [State.fetch_of_lt hlt, hpc]
    exact congrArg Except.ok ((congrArg₂ wordOfBytes hhi hlo).trans (wordOfBytes_highByte_lowByte _))
  exact State.fetchInstr_of_decode_ok hfetch (decodeWord_encodeWord i)

/-- Settles O57: with no ROM the word at 0x200 is 0000, in R66's list; with a ROM, by `fetchInstr_of_load`. -/
theorem firstStepAfterResetAndLoad : Obligations.FirstStepAfterResetAndLoad := by
  unfold Obligations.FirstStepAfterResetAndLoad
  refine ⟨fun cfg => ?_, fun s i rest hlen => ⟨_, rfl, ?_⟩⟩
  · have hzero {a : Nat} (ha : 80 ≤ a) : (State.resetWith cfg).readByte a = 0 :=
      (readByte_of_mem_nil rfl a).trans (Memory.background_of_ge _ ha)
    have hpc : (State.resetWith cfg).pc = 0x200 := rfl
    have hfetch : (State.resetWith cfg).fetch = .ok 0x0000 := by
      rw [State.fetch_of_lt (by rw [hpc]; decide), hzero (by rw [hpc]; decide), hzero (by rw [hpc]; decide)]
      rfl
    exact step_eq_fault_iff.2 (.inr ⟨_, hfetch, .inl ⟨rfl, rfl⟩⟩)
  · have hload : hostLoad (encode i ++ rest) (hostReset s) =
        (.done, { hostReset s with mem := Memory.ofBytes s.cfg.font 0x200 (encode i ++ rest) }) :=
      hostLoad_of_length_le _ (by simp [encode]; omega)
    simp only [hostRun, hostOp, hload]
    exact ⟨rfl, step_of_fetchInstr_ok (fetchInstr_of_load i rest rfl rfl)⟩

end Sys2Proof.Machine
end

section
/-! Runs that wait (R177, R232): a STEP whose instruction changes nothing only clears the outputs and ticks, for any
number of STEPs; and the key that ends a key-wait. -/

namespace Sys2Proof.Machine

open Sys2Proof.Spec

variable {s : State} {x : RegIdx}

/-! ### STEPs that change nothing but the timers and the outputs -/

/-- What a STEP whose instruction leaves the state as it is makes of it. -/
def State.idle (s : State) : State := s.beginStep.tick

theorem run_succ_of_next {t : State} (h : step s = .next t) (k : Nat) : core.run (k + 1) s = core.run k t := by
  have hcore : core.step s = .next t := h
  simp only [Host.Core.run, hcore]

/-- As long as a condition makes each STEP idle and is kept by it, any number of STEPs succeeds, the timers count down
by one a STEP, and nothing else changes but the outputs. -/
theorem run_of_idle {P : State → Prop} (hstep : ∀ s, P s → step s = .next s.idle) (hkeep : ∀ s, P s → P s.idle)
    (n : Nat) (s : State) (h : P s) :
    ∃ t, core.run n s = .next t ∧ P t ∧ t.dt.toNat = s.dt.toNat - n ∧ t.st.toNat = s.st.toNat - n ∧
      t = { s with dt := t.dt, st := t.st, out := t.out } := by
  induction n generalizing s with
  | zero => exact ⟨s, rfl, h, rfl, rfl, rfl⟩
  | succ n ih =>
    obtain ⟨t, hrun, ht, hdt, hst, heq⟩ := ih s.idle (hkeep s h)
    have hdown (b : Byte) : (tickDown b).toNat - n = b.toNat - (n + 1) := by
      rw [tickDown_toNat]
      omega
    exact ⟨t, (run_succ_of_next (hstep s h) n).trans hrun, ht, hdt.trans (hdown s.dt), hst.trans (hdown s.st), heq⟩

/-! ### The end of a program (R232, D30) -/

theorem step_of_endedAt {a : Addr} (h : EndedAt a s) : step s = .next s.idle := by
  obtain ⟨hpc, hfetch⟩ := h
  have hi : s.fetchInstr = .ok (.jp a) := State.fetchInstr_of_decode_ok hfetch (decodeWord_encodeWord (.jp a))
  refine step_eq_next.2 ⟨_, _, hi, rfl, ?_⟩
  rw [← hpc]
  rfl

/-- Settles O39: a self-jump writes the pc it stands at, so `run_of_idle` holds of it. -/
theorem idleLoopRunsForEver : Obligations.IdleLoopRunsForEver := by
  unfold Obligations.IdleLoopRunsForEver
  exact fun a s n h => run_of_idle (P := EndedAt a) (fun _ => step_of_endedAt) (fun _ h => h) n s h

/-! ### The key-wait (R177, D12) -/

theorem step_of_keyWaiting (h : KeyWaiting x s) : step s = .next s.idle := by
  obtain ⟨hi, hnone⟩ := h
  have hexec : exec (.ldVxK x) s.beginStep = .next s.beginStep := exec_ldVxK_eq_next.2 (.inr ⟨hnone, rfl⟩)
  exact step_eq_next.2 ⟨_, _, hi, hexec, rfl⟩

/-- The one key the host presses during a key-wait is the least pressed key. -/
theorem lowestKey_hostSetKey (hnone : s.lowestKey = none) (k : Fin 16) :
    (hostSetKey k.val true s).2.lowestKey = some k := by
  have hkey (j : Fin 16) : (hostSetKey k.val true s).2.keyDown j = if j = k then true else s.keyDown j := by
    have hin : keyIndexInDomain k.val = true := decide_eq_true (Nat.le_of_lt_succ k.isLt)
    simp [hostSetKey, hin, State.keyDown, Vector.get_eq_getElem, Vector.getElem_set, Fin.ext_iff, eq_comm]
  refine State.lowestKey_eq_some.2 ⟨by rw [hkey, if_pos rfl], fun j hj => ?_⟩
  rw [hkey, if_neg (Fin.ne_of_lt hj)]
  exact State.lowestKey_eq_none.1 hnone j

/-- Once a key is pressed the next STEP of a key-wait stores its index and goes on to the next word. -/
theorem step_of_keyWaiting_setKey (h : KeyWaiting x s) (k : Fin 16) :
    ∃ u, step (hostSetKey k.val true s).2 = .next u ∧ (u.readV x).toNat = k.val ∧ u.pc = s.pc + 2 := by
  obtain ⟨hi, hnone⟩ := h
  have hlow := lowestKey_hostSetKey hnone k
  obtain ⟨keys, he⟩ := hostSetKey_state k.val true s
  rw [he] at hlow ⊢
  have hexec := (exec_ldVxK_eq_next (x := x) (s := { s with key := keys }.beginStep)).2 (.inl ⟨k, hlow, rfl⟩)
  refine ⟨_, step_eq_next.2 ⟨_, _, hi, hexec, rfl⟩, ?_, rfl⟩
  rw [State.readV_tick, State.readV_advance, State.readV_writeV_same, BitVec.toNat_ofNat]
  exact Nat.mod_eq_of_lt (by omega)

/-- Settles O38: `run_of_idle` for the STEPs with no key, `step_of_keyWaiting_setKey` for the one after a key. -/
theorem keyWaitHoldsUntilKey : Obligations.KeyWaitHoldsUntilKey := by
  unfold Obligations.KeyWaitHoldsUntilKey
  intro x s n h
  obtain ⟨t, hrun, ht, hdt, hst, heq⟩ :=
    run_of_idle (P := KeyWaiting x) (fun _ => step_of_keyWaiting) (fun _ h => h) n s h
  have hpc : t.pc = s.pc := by rw [heq]
  refine ⟨t, hrun, ht, hpc, by rw [heq], by rw [heq], by rw [heq], hdt, hst, fun k => ?_⟩
  rw [← hpc]
  exact step_of_keyWaiting_setKey ht k

end Sys2Proof.Machine
end

section
/-! The display (44_display.md). A sprite is the list of the pixels its 1 bits land on; no pixel is in it twice, so
drawing it toggles exactly those pixels, and a collision is a pixel among them that was 1. -/

namespace Sys2Proof.Machine

open Sys2Proof.Spec

/-! ### Drawing a list of pixels -/

/-- The display and the collision after a 1 bit has landed on each pixel of a list, in order. -/
def blitHits (acc : Framebuffer × Bool) (hits : List (Fin 64 × Fin 32)) : Framebuffer × Bool :=
  hits.foldl (fun acc p => blitPixel acc p.1 p.2) acc

theorem Framebuffer.pixel_toggle_pair (fb : Framebuffer) (p q : Fin 64 × Fin 32) :
    (fb.toggle p.1 p.2).pixel q.1 q.2 = (fb.pixel q.1 q.2 ^^ decide (q = p)) := by
  simp only [Framebuffer.pixel_toggle, Prod.ext_iff]

theorem pixel_blitHits {hits : List (Fin 64 × Fin 32)} (hnodup : hits.Nodup) (acc : Framebuffer × Bool)
    (q : Fin 64 × Fin 32) :
    (blitHits acc hits).1.pixel q.1 q.2 = (acc.1.pixel q.1 q.2 ^^ decide (q ∈ hits)) := by
  induction hits generalizing acc with
  | nil => simp [blitHits]
  | cons p hits ih =>
    obtain ⟨hp, hnodup⟩ := List.nodup_cons.1 hnodup
    refine (ih hnodup (blitPixel acc p.1 p.2)).trans ?_
    rw [blitPixel, Framebuffer.pixel_toggle_pair]
    by_cases hq : q = p
    · simp [hq, hp]
    · simp [hq]

theorem collision_blitHits {hits : List (Fin 64 × Fin 32)} (hnodup : hits.Nodup) (acc : Framebuffer × Bool) :
    (blitHits acc hits).2 = (acc.2 || hits.any fun p => acc.1.pixel p.1 p.2) := by
  induction hits generalizing acc with
  | nil => simp [blitHits]
  | cons p hits ih =>
    obtain ⟨hp, hnodup⟩ := List.nodup_cons.1 hnodup
    have hrest : (hits.any fun q => (acc.1.toggle p.1 p.2).pixel q.1 q.2) = hits.any fun q => acc.1.pixel q.1 q.2 := by
      rw [Bool.eq_iff_iff, List.any_eq_true, List.any_eq_true]
      refine exists_congr fun q => and_congr_right fun hq => ?_
      rw [Framebuffer.pixel_toggle_pair, decide_eq_false (ne_of_mem_of_not_mem hq hp), Bool.xor_false]
    refine (ih hnodup (blitPixel acc p.1 p.2)).trans ?_
    rw [blitPixel, hrest, List.any_cons, Bool.or_assoc]

/-! ### The pixels of a sprite (R161) -/

/-- The pixels the 1 bits of a sprite row land on. -/
def rowHits (x0 : Byte) (y : Fin 32) (b : Byte) : List (Fin 64 × Fin 32) :=
  ((List.range 8).filter fun c => b.getLsbD (7 - c)).map fun c => (Fin.ofNat 64 (x0.toNat + c), y)

/-- The pixels the 1 bits of a sprite land on, from its row `r` on. -/
def spriteHits (x0 y0 : Byte) : Nat → List Byte → List (Fin 64 × Fin 32)
  | _, [] => []
  | r, b :: bs => rowHits x0 (Fin.ofNat 32 (y0.toNat + r)) b ++ spriteHits x0 y0 (r + 1) bs

variable (x0 y0 : Byte)

theorem blitRow_eq_blitHits (y : Fin 32) (b : Byte) (acc : Framebuffer × Bool) :
    blitRow x0 y b acc = blitHits acc (rowHits x0 y b) := by
  rw [blitHits, rowHits, List.foldl_map, List.foldl_filter]
  rfl

theorem blitRows_eq_blitHits (r : Nat) (rows : List Byte) (acc : Framebuffer × Bool) :
    blitRows x0 y0 r rows acc = blitHits acc (spriteHits x0 y0 r rows) := by
  induction rows generalizing r acc with
  | nil => rfl
  | cons b bs ih =>
    rw [blitRows, ih, blitRow_eq_blitHits, spriteHits, blitHits, blitHits, blitHits, List.foldl_append]

theorem mem_rowHits {y py : Fin 32} {b : Byte} {px : Fin 64} :
    (px, py) ∈ rowHits x0 y b ↔ py = y ∧ ∃ c < 8, b.getLsbD (7 - c) = true ∧ px.val = (x0.toNat + c) % 64 := by
  simp only [rowHits, List.mem_map, List.mem_filter, List.mem_range, Prod.mk.injEq, Fin.ext_iff, Fin.val_ofNat]
  constructor
  · rintro ⟨c, ⟨hc, hb⟩, hx, hy⟩
    exact ⟨hy.symm, c, hc, hb, hx.symm⟩
  · rintro ⟨hy, c, hc, hb, hx⟩
    exact ⟨c, ⟨hc, hb⟩, hx.symm, hy.symm⟩

theorem mem_spriteHits {r : Nat} {rows : List Byte} {px : Fin 64} {py : Fin 32} :
    (px, py) ∈ spriteHits x0 y0 r rows ↔ ∃ (j : Nat) (hj : j < rows.length), ∃ c < 8,
      rows[j].getLsbD (7 - c) = true ∧ px.val = (x0.toNat + c) % 64 ∧ py.val = (y0.toNat + (r + j)) % 32 := by
  induction rows generalizing r with
  | nil => simp [spriteHits]
  | cons b bs ih =>
    rw [spriteHits, List.mem_append, mem_rowHits, ih]
    constructor
    · rintro (⟨rfl, c, hc, hb, hx⟩ | ⟨j, hj, c, hc, hb, hx, hy⟩)
      · exact ⟨0, by simp, c, hc, hb, hx, rfl⟩
      · exact ⟨j + 1, by simpa using hj, c, hc, hb, hx, by rw [hy]; congr 2; omega⟩
    · rintro ⟨j, hj, c, hc, hb, hx, hy⟩
      cases j with
      | zero => exact .inl ⟨Fin.ext hy, c, hc, hb, hx⟩
      | succ j => exact .inr ⟨j, by simpa using hj, c, hc, hb, hx, by rw [hy]; congr 2; omega⟩

/-- The eight columns of a row are eight pixels. -/
theorem nodup_rowHits (y : Fin 32) (b : Byte) : (rowHits x0 y b).Nodup := by
  refine (List.nodup_range.filter _).map_on fun c hc d hd h => ?_
  have hc' := List.mem_range.1 (List.mem_filter.1 hc).1
  have hd' := List.mem_range.1 (List.mem_filter.1 hd).1
  have hx : (x0.toNat + c) % 64 = (x0.toNat + d) % 64 := congrArg (fun p => p.1.val) h
  omega

/-- Up to 32 rows land on as many lines of the display. -/
theorem nodup_spriteHits {r : Nat} {rows : List Byte} (hlen : rows.length ≤ 32) :
    (spriteHits x0 y0 r rows).Nodup := by
  induction rows generalizing r with
  | nil => exact List.nodup_nil
  | cons b bs ih =>
    rw [List.length_cons] at hlen
    refine List.nodup_append.2 ⟨nodup_rowHits x0 _ b, ih (by omega), ?_⟩
    rintro ⟨px, py⟩ hrow _ hrest rfl
    obtain ⟨rfl, -⟩ := (mem_rowHits x0).1 hrow
    obtain ⟨j, hj, c, -, -, -, hy⟩ := (mem_spriteHits x0 y0).1 hrest
    rw [Fin.val_ofNat] at hy
    omega

/-! ### A draw (R162) -/

/-- The pixels a draw of `n` rows lands on. -/
def State.drawHits (s : State) (x y : RegIdx) (n : Nibble) : List (Fin 64 × Fin 32) :=
  spriteHits (s.readV x) (s.readV y) 0 (s.readBytes s.dataBase n.toNat)

variable {s t : State} {x y : RegIdx} {n : Nibble}

theorem mem_drawHits {px : Fin 64} {py : Fin 32} :
    (px, py) ∈ s.drawHits x y n ↔ spriteOn s (s.readV x).toNat (s.readV y).toNat n.toNat px py := by
  simp only [State.drawHits, mem_spriteHits, State.getElem_readBytes, State.length_readBytes, Nat.zero_add, spriteOn,
    exists_prop]
  rfl

/-- A draw lands on some pixel exactly when its sprite has a 1 bit. -/
theorem exists_mem_drawHits_iff :
    (∃ p, p ∈ s.drawHits x y n) ↔ ∃ r < n.toNat, s.readByte (s.index.toNat + r) ≠ 0 := by
  constructor
  · rintro ⟨⟨px, py⟩, hp⟩
    obtain ⟨r, hr, c, -, hb, -⟩ := mem_drawHits.1 hp
    exact ⟨r, hr, fun h0 => by simp [h0] at hb⟩
  · rintro ⟨r, hr, h0⟩
    have hbit : ∃ j < 8, (s.readByte (s.index.toNat + r)).getLsbD j = true := by
      by_contra hnone
      refine h0 (BitVec.eq_of_getLsbD_eq fun j hj => ?_)
      simpa using fun hb => hnone ⟨j, hj, hb⟩
    obtain ⟨j, hj, hb⟩ := hbit
    refine ⟨(Fin.ofNat 64 ((s.readV x).toNat + (7 - j)), Fin.ofNat 32 ((s.readV y).toNat + r)),
      mem_drawHits.2 ⟨r, hr, 7 - j, by omega, ?_, rfl, rfl⟩⟩
    rwa [show 7 - (7 - j) = j by omega]

/-- Two states that agree on the sprite and its place draw on the same pixels. -/
theorem drawHits_congr (hindex : t.index = s.index) (hread : ∀ a, t.readByte a = s.readByte a)
    (hx : t.readV x = s.readV x) (hy : t.readV y = s.readV y) : t.drawHits x y n = s.drawHits x y n := by
  rw [State.drawHits, State.drawHits, hx, hy, State.dataBase, hindex, State.readBytes_congr hread]
  rfl

/-- What a draw that succeeds has done to the display and to VF: the pixels of the sprite are toggled, and the flag says
whether one of them was 1. -/
theorem exec_drw_spec (h : exec (.drw x y n) s = .next t) :
    (∀ p : Fin 64 × Fin 32, t.fb.pixel p.1 p.2 = (s.fb.pixel p.1 p.2 ^^ decide (p ∈ s.drawHits x y n))) ∧
      (t.readV 15).toNat = if (s.drawHits x y n).any (fun p => s.fb.pixel p.1 p.2) then 1 else 0 := by
  obtain ⟨-, r, hr, rfl⟩ := exec_drw_eq_next.1 h
  have hr : r = blitHits (s.fb, false) (s.drawHits x y n) := hr.trans (blitRows_eq_blitHits _ _ _ _ _)
  have hnodup : (s.drawHits x y n).Nodup := nodup_spriteHits _ _ (by
    rw [State.length_readBytes]
    have := n.isLt
    omega)
  refine ⟨fun p => ?_, ?_⟩
  · rw [State.advance_fb, State.markDirty_fb, State.writeV_fb, hr]
    exact pixel_blitHits hnodup _ p
  · have hflag : r.2 = (s.drawHits x y n).any fun p => s.fb.pixel p.1 p.2 := by
      rw [hr, collision_blitHits hnodup, Bool.false_or]
    rw [← hflag, ← flagByte_toNat]
    exact congrArg BitVec.toNat (State.readV_writeV_same _ regVF _)

/-- A draw reports a collision exactly when a pixel goes from 1 to 0. -/
theorem exec_drw_collision (h : exec (.drw x y n) s = .next t) :
    (s.drawHits x y n).any (fun p => s.fb.pixel p.1 p.2) = true ↔
      ∃ px py, s.fb.pixel px py = true ∧ t.fb.pixel px py = false := by
  obtain ⟨hpixel, -⟩ := exec_drw_spec h
  simp only [List.any_eq_true, Prod.exists]
  refine exists_congr fun px => exists_congr fun py => ?_
  have hp := hpixel (px, py)
  simp only at hp
  rw [hp]
  cases s.fb.pixel px py <;> simp

/-- Writing the display, then VF, and going on to the next word changes nothing else but the outputs and the dirty bit.
-/
theorem onlyDisplay_drw_advance (s : State) (fb : Framebuffer) (b : Byte) :
    OnlyDisplay [15] s (({ s with fb := fb }.writeV regVF b).markDirty).advance :=
  ⟨fun _ hr => State.readV_writeV_other _ b (List.ne_of_not_mem_cons hr), fun _ => rfl, rfl, ⟨rfl, rfl⟩, ⟨rfl, rfl⟩,
    rfl, ⟨rfl, rfl⟩, rfl, rfl⟩

/-- A draw in range succeeds, and this is its frame. -/
theorem exec_drw_of_inRange (h : n.toNat = 0 ∨ s.dataBase + n.toNat - 1 ≤ 0xFFF) :
    ∃ t, exec (.drw x y n) s = .next t ∧ t.dirty = true ∧ t.out.displayDirty = true ∧
      t.pc.toNat = (s.pc.toNat + 2) % 2 ^ 16 ∧ OnlyDisplay [15] s t := by
  have hrange : n.toNat = 0 ∨ s.index.toNat + n.toNat ≤ 0x1000 := by
    unfold State.dataBase at h
    omega
  have hexec := exec_drw_eq_next (x := x) (y := y).2 ⟨hrange, _, rfl, rfl⟩
  exact ⟨_, hexec, rfl, rfl, exec_pc hexec, onlyDisplay_drw_advance s _ _⟩

/-! ### The display instructions -/

/-- Settles O30: every pixel of the clear display is 0. -/
theorem clearDisplay : Obligations.ClearDisplay := by
  unfold Obligations.ClearDisplay
  exact ⟨rfl, fun s => ⟨_, rfl, Framebuffer.pixel_clear, rfl, rfl, State.advance_pc_toNat _,
    fun _ _ => rfl, fun _ => rfl, rfl, ⟨rfl, rfl⟩, ⟨rfl, rfl⟩, rfl, ⟨rfl, rfl⟩, rfl, rfl⟩⟩

/-- Settles O31, by `exec_drw_spec` and `exec_drw_collision`. -/
theorem drawXorsSprite : Obligations.DrawXorsSprite := by
  unfold Obligations.DrawXorsSprite
  intro x y n
  rw [← wordRegReg_eq_append]
  refine ⟨decodeWord_encodeWord (.drw x y n), fun s => ⟨fun hin => ?_, fun ⟨hpos, hout⟩ =>
    State.withData_fault_of_lt hpos hout _⟩⟩
  obtain ⟨t, hexec, hrest⟩ := exec_drw_of_inRange (x := x) (y := y) hin
  obtain ⟨hpixel, hflag⟩ := exec_drw_spec hexec
  have hcoll := exec_drw_collision hexec
  refine ⟨t, hexec, fun px py => ?_, fun h => hflag.trans (if_pos (hcoll.2 h)),
    fun h => hflag.trans (if_neg fun h' => h (hcoll.1 h')), hrest⟩
  rw [← mem_drawHits, show t.fb.pixel px py = _ from hpixel (px, py)]
  cases s.fb.pixel px py <;> simp

/-- Settles O32: a draw of no rows is in range and lands on no pixel. -/
theorem drawOfNoRows : Obligations.DrawOfNoRows := by
  unfold Obligations.DrawOfNoRows
  intro x y s
  obtain ⟨t, hexec, hrest⟩ := exec_drw_of_inRange (s := s) (x := x) (y := y) (n := 0) (.inl rfl)
  obtain ⟨hpixel, hflag⟩ := exec_drw_spec hexec
  have hhits : s.drawHits x y 0 = [] := rfl
  rw [hhits] at hpixel hflag
  refine ⟨t, hexec, Framebuffer.eq_of_pixel fun px py => (hpixel (px, py)).trans ?_, hflag, hrest⟩
  rw [decide_eq_false List.not_mem_nil, Bool.xor_false]

/-- Settles O33: the second draw toggles the same pixels again, and from a clear display it finds every one of them 1.
-/
theorem drawTwiceRestoresDisplay : Obligations.DrawTwiceRestoresDisplay := by
  unfold Obligations.DrawTwiceRestoresDisplay
  intro s t u x y n hfirst hfb hindex hread hx hy
  obtain ⟨hpixel, hflag⟩ := exec_drw_spec hfirst
  have hhits : u.drawHits x y n = s.drawHits x y n := drawHits_congr hindex hread hx hy
  obtain ⟨hrange, -⟩ := exec_drw_eq_next.1 hfirst
  have hsecond := exec_drw_eq_next (x := x) (y := y).2 ⟨hindex.symm ▸ hrange, _, rfl, rfl⟩
  obtain ⟨hpixel', hflag'⟩ := exec_drw_spec hsecond
  rw [hhits, hfb] at hflag'
  refine ⟨_, hsecond, Framebuffer.eq_of_pixel fun px py => ?_, fun hclear => ⟨?_, fun hbit => ?_, fun hnone => ?_⟩⟩
  · have h1 := hpixel (px, py)
    have h2 := hpixel' (px, py)
    rw [hhits, hfb, h1, Bool.xor_assoc, Bool.xor_self, Bool.xor_false] at h2
    exact h2
  · rw [hflag, if_neg (by simp [hclear])]
  · obtain ⟨p, hp⟩ := exists_mem_drawHits_iff.2 hbit
    refine hflag'.trans (if_pos (List.any_eq_true.2 ⟨p, hp, ?_⟩))
    rw [hpixel, hclear, decide_eq_true hp, Bool.false_xor]
  · refine hflag'.trans (if_neg fun hany => ?_)
    obtain ⟨p, hp, -⟩ := List.any_eq_true.1 hany
    exact hnone (exists_mem_drawHits_iff.1 ⟨p, hp⟩)

end Sys2Proof.Machine
end
